-- ==== Sys2Proof/Word.lean ====
section
/-! DEFINITION. Word: the one word type of the block, the 8-bit byte of 00_scope.md R14 and R15 (bit 0 is the least
significant bit; every value is unsigned). -/

namespace Sys2Proof

/-- A data byte `b[7..0]` (00_scope.md R14). -/
abbrev Byte := BitVec 8

end Sys2Proof
end

