-- ==== Sys2Proof/Syntax.lean ====
section
/-! DEFINITION. Syntax: the operations of the block, one constructor for each row of spec/opcode_table.json, and the
words by which an agent selects one at a port (30_encoding.md R47, R49, R50). -/

namespace Sys2Proof

/-- The operations. The first five are evaluations of the Command Encoder, the next three are the producer's, then the
consumer's one, then the internal operations that no port selects (30_encoding.md, operation map). -/
inductive Instr where
  /-- ENC_IDLE (41_encoder.md R71). -/
  | encIdle
  /-- ENC_THROTTLE (41_encoder.md R72). -/
  | encThrottle (addr : BitVec 14) (speed : BitVec 7) (fwd estop : Bool)
  /-- ENC_FG1 (41_encoder.md R73). -/
  | encFg1 (addr : BitVec 14) (fbits : BitVec 5)
  /-- ENC_FG2L (41_encoder.md R74). -/
  | encFg2l (addr : BitVec 14) (fbits : BitVec 5)
  /-- ENC_FG2H (41_encoder.md R75). -/
  | encFg2h (addr : BitVec 14) (fbits : BitVec 5)
  /-- P_NOP (44_refresh.md R94). -/
  | pNop
  /-- STAGE_RESET (44_refresh.md R95). -/
  | stageReset (slot : BitVec 8)
  /-- STAGE_APPEND (44_refresh.md R96): the command is the first `n` of the six bytes. -/
  | stageAppend (slot : BitVec 8) (n : BitVec 3) (b0 b1 b2 b3 b4 b5 : Byte)
  /-- NEXTBIT (44_refresh.md R89). -/
  | nextbit
  /-- PKT_RESET (42_packet.md R80). -/
  | pktReset (slot : BitVec 8) (buf : BitVec 1)
  /-- PKT_APPEND (42_packet.md R81). -/
  | pktAppend (slot : BitVec 8) (buf : BitVec 1) (cmd : List Byte)
  /-- PKT_GETBIT (42_packet.md R82). -/
  | pktGetbit (slot : BitVec 8) (buf : BitVec 1) (i : BitVec 8)
  /-- PKT_LENGTH (42_packet.md R83). -/
  | pktLength (slot : BitVec 8) (buf : BitVec 1)
  /-- SLOT_STAGE (43_slot.md R84). -/
  | slotStage (slot : BitVec 8)
  /-- SLOT_FLIP (43_slot.md R85). -/
  | slotFlip (slot : BitVec 8)
  /-- SLOT_GETBIT (43_slot.md R86). -/
  | slotGetbit (slot : BitVec 8) (i : BitVec 8)
  /-- SLOT_LENGTH (43_slot.md R87). -/
  | slotLength (slot : BitVec 8)
  deriving DecidableEq, Repr

/-- What an agent puts at a port of the block. -/
inductive PortWord where
  /-- An encoder request `ENCREQ` (30_encoding.md R47). -/
  | encreq (w : BitVec 32)
  /-- A producer request `PREQ` (30_encoding.md R49). -/
  | preq (w : BitVec 64)
  /-- One strobe of `nb_req`, which has no operand field (30_encoding.md R50). -/
  | nbReq
  deriving DecidableEq, Repr

end Sys2Proof
end

