-- ==== Sys2Proof/Decode.lean ====
section
/-! DEFINITION. Decode: from a word at a port to the operation it selects or the name of its rejection
(30_encoding.md R47, R49, R50, R60, R61; 41_encoder.md R67; 44_refresh.md R93), and the encoder back. -/

namespace Sys2Proof

/-- Why a word selects no operation. -/
inductive Reject where
  /-- An `ENCREQ` with kind `101`, `110` or `111`, or with bit 31 set (30_encoding.md R60): the encoder answers
  `E_RESERVED`. -/
  | reservedEncReq
  /-- A `PREQ` with op `11`, or with rsv not `000` (30_encoding.md R61): `F_RESERVED_OP`. -/
  | reservedOp
  deriving DecidableEq, Repr

/-- The decoder's answer. -/
inductive Decoded where
  | instr (i : Instr)
  | rejected (r : Reject)
  deriving DecidableEq, Repr

/-! ### The fields of `ENCREQ` (30_encoding.md R47) -/

abbrev encKind (w : BitVec 32) : BitVec 3 := w.extractLsb' 0 3
abbrev encAddr (w : BitVec 32) : BitVec 14 := w.extractLsb' 3 14
abbrev encSpeed (w : BitVec 32) : BitVec 7 := w.extractLsb' 17 7
abbrev encFwd (w : BitVec 32) : Bool := w.getLsbD 24
abbrev encEstop (w : BitVec 32) : Bool := w.getLsbD 25
abbrev encFbits (w : BitVec 32) : BitVec 5 := w.extractLsb' 26 5
abbrev encRsv (w : BitVec 32) : Bool := w.getLsbD 31

/-! ### The fields of `PREQ` (30_encoding.md R49) -/

abbrev preqOp (w : BitVec 64) : BitVec 2 := w.extractLsb' 0 2
abbrev preqN (w : BitVec 64) : BitVec 3 := w.extractLsb' 2 3
abbrev preqRsv (w : BitVec 64) : BitVec 3 := w.extractLsb' 5 3
abbrev preqSlot (w : BitVec 64) : BitVec 8 := w.extractLsb' 8 8
/-- Byte `b_k` in bits `23+8k : 16+8k`. -/
abbrev preqByte (w : BitVec 64) (k : Nat) : Byte := w.extractLsb' (16 + 8 * k) 8

/-- Dispatch of an encoder request on its kind (41_encoder.md R67). -/
def decodeEncReq (w : BitVec 32) : Decoded :=
  if encRsv w then .rejected .reservedEncReq
  else if encKind w = 0b000#3 then .instr .encIdle
  else if encKind w = 0b001#3 then .instr (.encThrottle (encAddr w) (encSpeed w) (encFwd w) (encEstop w))
  else if encKind w = 0b010#3 then .instr (.encFg1 (encAddr w) (encFbits w))
  else if encKind w = 0b011#3 then .instr (.encFg2l (encAddr w) (encFbits w))
  else if encKind w = 0b100#3 then .instr (.encFg2h (encAddr w) (encFbits w))
  else .rejected .reservedEncReq

/-- Dispatch of a producer request on its op (44_refresh.md R93). -/
def decodePreq (w : BitVec 64) : Decoded :=
  if preqRsv w ≠ 0b000#3 then .rejected .reservedOp
  else if preqOp w = 0b00#2 then .instr .pNop
  else if preqOp w = 0b01#2 then .instr (.stageReset (preqSlot w))
  else if preqOp w = 0b10#2 then
    .instr (.stageAppend (preqSlot w) (preqN w)
      (preqByte w 0) (preqByte w 1) (preqByte w 2) (preqByte w 3) (preqByte w 4) (preqByte w 5))
  else .rejected .reservedOp

/-- The operation a word at a port selects: total, every word is an operation or a rejection by name. -/
def decode : PortWord → Decoded
  | .encreq w => decodeEncReq w
  | .preq w => decodePreq w
  | .nbReq => .instr .nextbit

/-- An `ENCREQ` from its fields, most significant first (30_encoding.md R47). -/
def encReqWord (fbits : BitVec 5) (estop fwd : Bool) (speed : BitVec 7) (addr : BitVec 14) (kind : BitVec 3) :
    BitVec 32 :=
  0#1 ++ fbits ++ BitVec.ofBool estop ++ BitVec.ofBool fwd ++ speed ++ addr ++ kind

/-- A `PREQ` from its fields, most significant first (30_encoding.md R49). -/
def preqWord (b5 b4 b3 b2 b1 b0 : Byte) (slot : BitVec 8) (n : BitVec 3) (op : BitVec 2) : BitVec 64 :=
  b5 ++ b4 ++ b3 ++ b2 ++ b1 ++ b0 ++ slot ++ 0#3 ++ n ++ op

/-- The word that selects an operation, with 0 in every field the operation ignores; none for the internal operations,
which no port selects (30_encoding.md, operation map). -/
def encode : Instr → Option PortWord
  | .encIdle => some (.encreq (encReqWord 0#5 false false 0#7 0#14 0b000#3))
  | .encThrottle addr speed fwd estop => some (.encreq (encReqWord 0#5 estop fwd speed addr 0b001#3))
  | .encFg1 addr fbits => some (.encreq (encReqWord fbits false false 0#7 addr 0b010#3))
  | .encFg2l addr fbits => some (.encreq (encReqWord fbits false false 0#7 addr 0b011#3))
  | .encFg2h addr fbits => some (.encreq (encReqWord fbits false false 0#7 addr 0b100#3))
  | .pNop => some (.preq (preqWord 0#8 0#8 0#8 0#8 0#8 0#8 0#8 0#3 0b00#2))
  | .stageReset slot => some (.preq (preqWord 0#8 0#8 0#8 0#8 0#8 0#8 slot 0#3 0b01#2))
  | .stageAppend slot n b0 b1 b2 b3 b4 b5 => some (.preq (preqWord b5 b4 b3 b2 b1 b0 slot n 0b10#2))
  | .nextbit => some .nbReq
  | .pktReset _ _ => none
  | .pktAppend _ _ _ => none
  | .pktGetbit _ _ _ => none
  | .pktLength _ _ => none
  | .slotStage _ => none
  | .slotFlip _ => none
  | .slotGetbit _ _ => none
  | .slotLength _ => none

/-- The port a row of the opcode table belongs to is told by the row's width: 32 bits `ENCREQ`, 64 bits `PREQ`, and one
bit (in whole bytes, 8) the strobe, which is a request only where its bit 0 is 1 (assumption 13). -/
def tableWord (nbits w : Nat) : Option PortWord :=
  if nbits = 32 then some (.encreq (BitVec.ofNat 32 w))
  else if nbits = 64 then some (.preq (BitVec.ofNat 64 w))
  else if 1 ≤ nbits && decide (nbits ≤ 8) && decide (w % 2 = 1) then some .nbReq
  else none

/-- The operation the decoder reads from a word numbered as spec/opcode_table.json numbers it. -/
def decodeTableWord (nbits w : Nat) : Option Instr :=
  match tableWord nbits w with
  | none => none
  | some p =>
    match decode p with
    | .instr i => some i
    | .rejected _ => none

end Sys2Proof
end

