-- ==== Sys2Proof/Config.lean ====
section
/-! DEFINITION. Config: the constants of the block (00_scope.md R8 to R11) and the parameters it is built with
(R7, R12, R13). The parameters are carried, read-only, in the machine's state, so a statement about every state is a
statement about every configuration; the defaults below only say which configuration `State.reset` has. -/

namespace Sys2Proof.Config

/-- `CAP_BYTES`: the capacity of one Packet buffer in bytes (00_scope.md R8). -/
abbrev capBytes : Nat := 30

/-- `MAX_CMDS`: the most commands appended into one Packet between two resets (00_scope.md R9). -/
abbrev maxCmds : Nat := 3

/-- The least length `N` of a command, checksum included (00_scope.md R10). -/
abbrev minCmdLen : Nat := 3

/-- The greatest length `N` of a command, checksum included (00_scope.md R10). -/
abbrev maxCmdLen : Nat := 6

/-- `PREAMBLE_BITS`: the preamble one-bits written at the start of every command (00_scope.md R11). -/
abbrev preambleBits : Nat := 22

/-- The greatest legal locomotive address (30_encoding.md R47, R51). -/
abbrev maxAddr : Nat := 9999

/-- The greatest address of the one-byte form (30_encoding.md R51). -/
abbrev maxShortAddr : Nat := 127

/-- The greatest legal speed step (30_encoding.md R47). -/
abbrev maxSpeed : Nat := 126

/-- The greatest number of Slots a block may be built with (00_scope.md R7). -/
abbrev maxSlots : Nat := 256

/-- `SLOTS` of `State.reset`. DESIGN CHOICE: the spec leaves it open (00_scope.md R7) and uses 2 in every example
(assumption 4). The block's own `SLOTS` is the length of the state's slot array. -/
abbrev defaultSlots : Nat := 2

/-- The parameters the Command Encoder reads (41_encoder.md R66). -/
structure Params where
  /-- `FG2L_PREFIX` (00_scope.md R12). -/
  fg2lPrefix : Byte
  /-- `FG2H_PREFIX` (00_scope.md R12). -/
  fg2hPrefix : Byte
  /-- `ESTOP_DIR_BIT` (00_scope.md R13). -/
  estopDirBit : Bool
  deriving DecidableEq, Repr

/-- The defaults of 00_scope.md R12 and R13. PRESUMED: the spec marks the two prefixes as general knowledge
(assumption 5). -/
def defaultParams : Params := { fg2lPrefix := 0xB0#8, fg2hPrefix := 0xA0#8, estopDirBit := false }

end Sys2Proof.Config
end

