-- ==== Sys2Proof/Machine/Operands.lean ====
section
/-! DEFINITION. Operands: what the operations compute from their operands: bit lists and packing (00_scope.md R16), the
checksum and address helpers and the speed byte (41_encoder.md R68, R69, R72), the length and the frame of a command
(42_packet.md R78, R79; 30_encoding.md R57). -/

namespace Sys2Proof.Machine

/-- `ones(k)`: the bit list of `k` one-bits (00_scope.md R16). -/
def ones (k : Nat) : List Bool := List.replicate k true

/-- Bit `b[7 - k]`: the `k`-th bit of a byte sent most significant bit first (20_memory.md R35). -/
def bitMsbFirst (b : Byte) (k : Nat) : Bool := b.getLsbD (7 - k)

/-- `bits8(b) = [b[7], ..., b[0]]` (00_scope.md R16). -/
def bits8 (b : Byte) : List Bool :=
  [bitMsbFirst b 0, bitMsbFirst b 1, bitMsbFirst b 2, bitMsbFirst b 3,
   bitMsbFirst b 4, bitMsbFirst b 5, bitMsbFirst b 6, bitMsbFirst b 7]

/-- The byte whose bits, most significant first, are the eight given. -/
def byteOfBits (b7 b6 b5 b4 b3 b2 b1 b0 : Bool) : Byte :=
  BitVec.ofBool b7 ++ BitVec.ofBool b6 ++ BitVec.ofBool b5 ++ BitVec.ofBool b4 ++
    BitVec.ofBool b3 ++ BitVec.ofBool b2 ++ BitVec.ofBool b1 ++ BitVec.ofBool b0

/-- `pack(L)`: each group of 8 consecutive bits as one byte, most significant first (00_scope.md R16, which defines it
on lists whose length is a multiple of 8). -/
def pack : List Bool → List Byte
  | b7 :: b6 :: b5 :: b4 :: b3 :: b2 :: b1 :: b0 :: rest => byteOfBits b7 b6 b5 b4 b3 b2 b1 b0 :: pack rest
  | _ => []

/-- `CHK(q)`: the XOR of all bytes (41_encoder.md R69). -/
def chk (q : List Byte) : Byte := q.foldr (fun b acc => b ^^^ acc) 0#8

/-- `FIN(q) = q ++ [CHK(q)]` (41_encoder.md R69). -/
def fin (q : List Byte) : List Byte := q ++ [chk q]

/-- `ADDR(a)`: one byte up to 127, two bytes above (41_encoder.md R68; 30_encoding.md R51). -/
def addrBytes (a : BitVec 14) : List Byte :=
  if a.toNat ≤ Config.maxShortAddr then [a.setWidth 8]
  else [(a >>> 8).setWidth 8 ||| 0xC0#8, a.setWidth 8]

/-- The address is outside `1 .. 9999` (41_encoder.md R72 to R75). -/
def addrOutOfRange (a : BitVec 14) : Bool := a.toNat < 1 || Config.maxAddr < a.toNat

/-- The speed byte `{dir, code[6:0]}` of a throttle command (41_encoder.md R72): code 1 on emergency stop, else 0 for
speed 0 and `speed + 1` above; bit 7 is the direction, and on emergency stop only with `ESTOP_DIR_BIT`. -/
def speedByte (p : Config.Params) (speed : BitVec 7) (fwd estop : Bool) : Byte :=
  if estop then
    (if p.estopDirBit && fwd then 0x80#8 else 0x00#8) ||| 0x01#8
  else
    (if fwd then 0x80#8 else 0x00#8) ||| (if speed = 0#7 then 0x00#8 else speed.setWidth 8 + 1#8)

/-- `L(N) = (22 + 9 * N + 7) div 8`: the bytes of the frame of an `N`-byte command (42_packet.md R78). -/
def frameLen (n : Nat) : Nat := (Config.preambleBits + 9 * n + 7) / 8

/-- The bits of a frame before its stop bit: the preamble, then a zero start bit and eight data bits for each byte
(42_packet.md R79). -/
def frameBody (c : List Byte) : List Bool :=
  ones Config.preambleBits ++ c.flatMap (fun b => false :: bits8 b)

/-- The bit list of a frame: its body, then ones up to the byte boundary, the first of them the stop bit
(42_packet.md R79; 30_encoding.md R57). -/
def frameBits (c : List Byte) : List Bool :=
  frameBody c ++ ones (8 * frameLen c.length - (frameBody c).length)

/-- `frame(c)` (42_packet.md R79). -/
def frame (c : List Byte) : List Byte := pack (frameBits c)

/-- The command of a STAGE_APPEND: `[b0, ..., b(n-1)]` (44_refresh.md R96). -/
def cmdBytes (n : BitVec 3) (b0 b1 b2 b3 b4 b5 : Byte) : List Byte :=
  [b0, b1, b2, b3, b4, b5].take n.toNat

/-- The length is outside `3 .. 6` (60_exceptions.md R102). -/
def cmdLenOutOfRange (n : Nat) : Bool := n < Config.minCmdLen || Config.maxCmdLen < n

end Sys2Proof.Machine
end

