-- ==== Sys2Proof/Machine/State.lean ====
section
/-! DEFINITION. State: everything 10_state.md gives the block, as plain data, with the block's read-only configuration,
the requests that wait at its ports and what the last operation returned; and the state after reset
(70_reset_and_hazards.md R115). -/

namespace Sys2Proof.Machine

/-- The byte store of one physical buffer, `mem[s][p][a]` (10_state.md R22): cells in rising order of `a`, none of them
holding what an unlisted address reads as (`Memory.unlisted`). -/
abbrev Memory := List Host.Cell

/-- What a byte nothing has written reads as. DESIGN CHOICE: the spec leaves it unspecified and says that no operation
observes it (70_reset_and_hazards.md R115; 93_implementation_defined.md I10) (assumption 3). -/
def Memory.unlisted : Byte := 0x00#8

/-- One physical Packet buffer. -/
structure Buffer where
  /-- `mem[s][p][0 .. 29]` (10_state.md R22). -/
  mem : Memory
  /-- `nbytes[s][p]`, the byte count (10_state.md R23). -/
  nbytes : BitVec 5
  /-- `ncmd[s][p]`, the command count (10_state.md R24). -/
  ncmd : BitVec 2
  deriving DecidableEq, Repr

/-- One Slot: its two physical buffers and its role bit. -/
structure Slot where
  /-- Physical buffer 0 (10_state.md R22). -/
  buf0 : Buffer
  /-- Physical buffer 1 (10_state.md R22). -/
  buf1 : Buffer
  /-- `act[s]`, the index of the active buffer (10_state.md R25). -/
  act : BitVec 1
  deriving DecidableEq, Repr

/-- The fault register's values, NONE and the six fault codes (60_exceptions.md R99; 10_state.md R27). -/
inductive FaultCode where
  | none
  /-- Producer dispatch of a reserved word (60_exceptions.md R100). -/
  | reservedOp
  /-- A slot index at or above SLOTS (60_exceptions.md R101). -/
  | slotIndex
  /-- A command length outside 3 to 6 (60_exceptions.md R102). -/
  | cmdLen
  /-- A command whose XOR is not zero (60_exceptions.md R103). -/
  | checksum
  /-- A fourth command, or a frame that does not fit (60_exceptions.md R104). -/
  | capacity
  /-- A bit read at or beyond the Packet's length (60_exceptions.md R105). -/
  | getbitRange
  deriving DecidableEq, Repr

/-- The encoder's rejection causes (60_exceptions.md R97). -/
inductive EncError where
  | addrRange
  | speedRange
  | fbitsRange
  | reserved
  deriving DecidableEq, Repr

/-- The two outcomes of an encoder evaluation, `Ok(q)` and `Err(e)` (41_encoder.md R67; 00_scope.md R18). -/
inductive EncResult where
  | ok (q : List Byte)
  | err (e : EncError)
  deriving DecidableEq, Repr

/-- What an operation returned in its step (30_encoding.md R48 to R50; 60_exceptions.md R108). The model's own
(assumption 2); the forms from `index` on are results of internal operations run directly (assumption 9). -/
inductive Response where
  /-- Nothing returned yet: right after reset. -/
  | nothing
  /-- The encoder's response word `ENCRSP` (30_encoding.md R48). -/
  | encrsp (w : BitVec 56)
  /-- The producer's status `pstat` (60_exceptions.md R108). -/
  | pstat (c : BitVec 3)
  /-- One bit: the result of NEXTBIT, PKT_GETBIT or SLOT_GETBIT. -/
  | bit (b : Bool)
  /-- A physical buffer index: the result of SLOT_STAGE (43_slot.md R84). -/
  | index (p : BitVec 1)
  /-- A bit length: the result of PKT_LENGTH or SLOT_LENGTH (42_packet.md R83; 43_slot.md R87). -/
  | length (n : BitVec 8)
  /-- The end of an internal operation that returns no value. -/
  | done
  /-- `raise Fault(code)` ended an operation that has no status port (00_scope.md R17). -/
  | raised (c : FaultCode)
  deriving DecidableEq, Repr

/-- One thing the outside world does to the block (00_scope.md R6). -/
inductive Request where
  /-- An agent's word at a port. -/
  | port (w : PortWord)
  /-- The platform's reset pulse (70_reset_and_hazards.md R116). -/
  | reset
  deriving DecidableEq, Repr

/-- Reasons for which the machine would stop. There is none: a fault of the block is recorded in its fault register and
the block goes on (60_exceptions.md R106), and the block has no final state (44_refresh.md R92). Nothing raises a stop;
this is safe (assumption 7). -/
inductive Fault where
  deriving DecidableEq, Repr

/-- Reasons for which the model gives no meaning. -/
inductive Refusal where
  /-- An operation with no meaning in this model, by its mnemonic: raised by a refused arm of `exec` only, of which
  there is none; safe. -/
  | notModelled (mnemonic : String)
  deriving DecidableEq, Repr

/-- The block. -/
structure State where
  /-- The Slots, `s = 0 .. SLOTS-1` (10_state.md R21); the length of the list is `SLOTS` (assumption 12). -/
  slots : List Slot
  /-- `cur_slot` (10_state.md R26). -/
  curSlot : BitVec 8
  /-- `cur_bit` (10_state.md R26). -/
  curBit : BitVec 8
  /-- The fault register (10_state.md R27). -/
  fault : FaultCode
  /-- The encoder's parameters, fixed when the block is built (10_state.md R20). -/
  params : Config.Params
  /-- The requests that have not taken effect yet, in the order they will (20_memory.md R42) (assumption 1). -/
  pending : List Request
  /-- What the last operation returned (assumption 2). -/
  resp : Response
  deriving DecidableEq, Repr

/-- The cells of a buffer that holds the idle frame `FF FF FD FE 00 7F FF` (70_reset_and_hazards.md R115); byte 4 is 00,
which is what an unlisted address reads as. -/
def Memory.idleFrame : Memory :=
  [(0, 0xFF#8), (1, 0xFF#8), (2, 0xFD#8), (3, 0xFE#8), (5, 0x7F#8), (6, 0xFF#8)]

/-- A Slot after reset (70_reset_and_hazards.md R115): buffer 0 active with the idle frame, buffer 1 empty. -/
def Slot.reset : Slot where
  buf0 := { mem := Memory.idleFrame, nbytes := 7#5, ncmd := 1#2 }
  buf1 := { mem := [], nbytes := 0#5, ncmd := 0#2 }
  act := 0#1

/-- The block of `n` Slots and parameters `p` after reset, with requests `rs` waiting (70_reset_and_hazards.md R115). -/
def State.resetWith (n : Nat) (p : Config.Params) (rs : List Request) : State where
  slots := List.replicate n Slot.reset
  curSlot := 0#8
  curBit := 0#8
  fault := .none
  params := p
  pending := rs
  resp := .nothing

/-- The machine right after reset (70_reset_and_hazards.md R115), built with the defaults of Config (assumptions 4 and
5), nothing waiting. -/
def State.reset : State := State.resetWith Config.defaultSlots Config.defaultParams []

end Sys2Proof.Machine
end

