-- ==== Sys2Proof/Machine/Flags.lean ====
section
/-! DEFINITION. Flags: the status values of the block: encoder status codes and the response word
(60_exceptions.md R97; 30_encoding.md R48; 41_encoder.md R67), fault codes, and the first-fault rule of the fault register
(60_exceptions.md R99, R106). The block has no condition flags (10_state.md R19). -/

namespace Sys2Proof.Machine

/-- `ENCRSP.status` of a rejection (60_exceptions.md R97). -/
def EncError.code : EncError → BitVec 3
  | .addrRange => 1#3
  | .speedRange => 2#3
  | .fbitsRange => 3#3
  | .reserved => 4#3

/-- An `ENCRSP` from its fields, most significant first (30_encoding.md R48). -/
def encRspWord (b5 b4 b3 b2 b1 b0 : Byte) (n status : BitVec 3) : BitVec 56 :=
  b5 ++ b4 ++ b3 ++ b2 ++ b1 ++ b0 ++ 0#2 ++ n ++ status

/-- Byte `k` of a command, 0 beyond its end. -/
def byteAt (q : List Byte) (k : Nat) : Byte := q.getD k 0#8

/-- The response word: `Ok(q)` has status 0, `n = len(q)` and the bytes of `q`; `Err(e)` has status `e`, `n = 0` and
every byte zero (41_encoder.md R67; 30_encoding.md R48). -/
def EncResult.word : EncResult → BitVec 56
  | .ok q =>
    encRspWord (byteAt q 5) (byteAt q 4) (byteAt q 3) (byteAt q 2) (byteAt q 1) (byteAt q 0)
      (BitVec.ofNat 3 q.length) 0#3
  | .err e => encRspWord 0#8 0#8 0#8 0#8 0#8 0#8 0#3 e.code

/-- The 3-bit code of a fault, as `pstat` and `fault_out` show it (60_exceptions.md R99). -/
def FaultCode.code : FaultCode → BitVec 3
  | .none => 0#3
  | .reservedOp => 1#3
  | .slotIndex => 2#3
  | .cmdLen => 3#3
  | .checksum => 4#3
  | .capacity => 5#3
  | .getbitRange => 6#3

/-- The fault register after a fault: the first fault since reset is kept (60_exceptions.md R106). -/
def FaultCode.record (old new : FaultCode) : FaultCode :=
  if old = .none then new else old

/-- The output `fault_out` (60_exceptions.md R108; 10_state.md R27). -/
def State.faultOut (s : State) : BitVec 3 := s.fault.code

end Sys2Proof.Machine
end

