-- ==== Sys2Proof/Machine/Ops.lean ====
section
/-! DEFINITION. Ops: the named operations over the state: bytes and bits of a buffer, buffers of a Slot, Slots of the
block; the fault outcome, which is this block's one exception (60_exceptions.md R106); and the internal operations of
42_packet.md and 43_slot.md as the port operations run them. An operation answers its result, or the code of the fault it
raises, having written nothing (00_scope.md R17). -/

namespace Sys2Proof.Machine

/-! ### Bytes of a buffer -/

/-- The byte at `a` (`MemRead`, 00_scope.md R17). -/
def Memory.read : Memory → Nat → Byte
  | [], _ => Memory.unlisted
  | (k, v) :: rest, a => if k = a then v else Memory.read rest a

/-- Lists a cell, or leaves it out where the byte is what an unlisted address reads as. -/
def Memory.cons (a : Nat) (v : Byte) (m : Memory) : Memory :=
  if v = Memory.unlisted then m else (a, v) :: m

/-- Writes the byte at `a`, keeping the canonical form (`MemWrite`, 00_scope.md R17). -/
def Memory.write : Memory → Nat → Byte → Memory
  | [], a, v => Memory.cons a v []
  | (k, u) :: rest, a, v =>
    if a < k then Memory.cons a v ((k, u) :: rest)
    else if a = k then Memory.cons a v rest
    else (k, u) :: Memory.write rest a v

/-- Writes a sequence of bytes from `a` on (`MemWrite`, 00_scope.md R17). -/
def Memory.writeBytes : Memory → Nat → List Byte → Memory
  | m, _, [] => m
  | m, a, v :: vs => Memory.writeBytes (m.write a v) (a + 1) vs

/-- Every address from `lo` on is below `hi`, addresses rise strictly and no cell holds the unlisted byte. -/
def Memory.wfFrom (hi : Nat) : Nat → Memory → Bool
  | _, [] => true
  | lo, (k, v) :: rest => decide (lo ≤ k) && decide (k < hi) && decide (v ≠ Memory.unlisted) && Memory.wfFrom hi (k + 1) rest

/-- The canonical form of a byte store of 30 bytes (10_state.md R22). -/
def Memory.wf (m : Memory) : Bool := Memory.wfFrom Config.capBytes 0 m

/-! ### One buffer -/

/-- `lenbits = 8 * nbytes` (10_state.md R23). -/
def Buffer.lenbits (b : Buffer) : Nat := 8 * b.nbytes.toNat

/-- Bit `i` is bit `7 - (i mod 8)` of byte `i div 8` (20_memory.md R35). -/
def Buffer.bitAt (b : Buffer) (i : Nat) : Bool := bitMsbFirst (b.mem.read (i / 8)) (i % 8)

/-- The body of PKT_RESET (42_packet.md R80): the counts go to 0, the bytes stay. -/
def Buffer.emptied (b : Buffer) : Buffer := { b with nbytes := 0#5, ncmd := 0#2 }

/-- The buffer after a frame of `c` at byte offset `nbytes` (42_packet.md R81, the writes). -/
def Buffer.appended (b : Buffer) (c : List Byte) : Buffer where
  mem := b.mem.writeBytes b.nbytes.toNat (frame c)
  nbytes := BitVec.ofNat 5 (b.nbytes.toNat + frameLen c.length)
  ncmd := BitVec.ofNat 2 (b.ncmd.toNat + 1)

/-- The body of PKT_APPEND with its checks in their order (42_packet.md R81). -/
def Buffer.append (b : Buffer) (c : List Byte) : Except FaultCode Buffer :=
  if cmdLenOutOfRange c.length then .error .cmdLen
  else if chk c ≠ 0#8 then .error .checksum
  else if b.ncmd.toNat = Config.maxCmds ∨ Config.capBytes < b.nbytes.toNat + frameLen c.length then .error .capacity
  else .ok (b.appended c)

/-- The body of PKT_GETBIT (42_packet.md R82). -/
def Buffer.getBit (b : Buffer) (i : Nat) : Except FaultCode Bool :=
  if b.lenbits ≤ i then .error .getbitRange else .ok (b.bitAt i)

/-! ### One Slot -/

/-- Physical buffer `p` (10_state.md R22). -/
def Slot.buf (sl : Slot) (p : BitVec 1) : Buffer := if p = 0#1 then sl.buf0 else sl.buf1

/-- The Slot with physical buffer `p` replaced. -/
def Slot.setBuf (sl : Slot) (p : BitVec 1) (b : Buffer) : Slot :=
  if p = 0#1 then { sl with buf0 := b } else { sl with buf1 := b }

/-- `stg(s) = 1 - act[s]` (10_state.md R25). -/
def Slot.stg (sl : Slot) : BitVec 1 := 1#1 - sl.act

/-- The active Packet (10_state.md R25). -/
def Slot.active (sl : Slot) : Buffer := sl.buf sl.act

/-- The staging Packet (10_state.md R25). -/
def Slot.staging (sl : Slot) : Buffer := sl.buf sl.stg

/-- The body of SLOT_FLIP (43_slot.md R85). -/
def Slot.flipped (sl : Slot) : Slot :=
  if sl.staging.nbytes = 0#5 then sl
  else { sl.setBuf sl.act sl.active.emptied with act := sl.stg }

/-! ### The Slots of the block -/

/-- `SLOTS` (00_scope.md R7). -/
def State.nslots (s : State) : Nat := s.slots.length

/-- Slot `i`, where it exists. -/
def State.slot? (s : State) (i : BitVec 8) : Option Slot := s.slots[i.toNat]?

/-- Replaces slot `i`. -/
def State.setSlot (s : State) (i : BitVec 8) (sl : Slot) : State := { s with slots := s.slots.set i.toNat sl }

/-- The slot an operation names; an index outside `0 .. SLOTS-1` is a fault (20_memory.md R33; 60_exceptions.md R101). -/
def State.getSlot (s : State) (i : BitVec 8) : Except FaultCode Slot :=
  match s.slot? i with
  | some sl => .ok sl
  | none => .error .slotIndex

/-! ### How an operation ends -/

/-- An operation that completed returns `r`. -/
def State.respond (s : State) (r : Response) : State := { s with resp := r }

/-- TAKING A FAULT (60_exceptions.md R106): the faulting operation writes the fault register only, which keeps the first
code since reset, and returns `r`; the block goes on. There is no return from a fault (R110): the register is cleared by
reset alone (R108). -/
def State.takeFault (s : State) (c : FaultCode) (r : Response) : State :=
  { s with fault := s.fault.record c, resp := r }

/-- How a raised fault shows at the producer port: `pstat` is its code (60_exceptions.md R108). -/
def pstatOf (c : FaultCode) : Response := .pstat c.code

/-- Ends an operation that answered `res` in state `s`: with its result, or by taking the fault it raised, shown as
`shown` says. -/
def finish (s : State) (shown : FaultCode → Response) (res : Except FaultCode (State × Response)) :
    Host.Outcome State Fault Refusal :=
  match res with
  | .ok (t, r) => .next (t.respond r)
  | .error c => .next (s.takeFault c (shown c))

/-! ### Internal Packet operations (42_packet.md) -/

/-- PKT_RESET (42_packet.md R80). -/
def pktReset (s : State) (i : BitVec 8) (p : BitVec 1) : Except FaultCode State :=
  match s.getSlot i with
  | .error c => .error c
  | .ok sl => .ok (s.setSlot i (sl.setBuf p (sl.buf p).emptied))

/-- PKT_APPEND (42_packet.md R81). -/
def pktAppend (s : State) (i : BitVec 8) (p : BitVec 1) (c : List Byte) : Except FaultCode State :=
  match s.getSlot i with
  | .error e => .error e
  | .ok sl =>
    match (sl.buf p).append c with
    | .error e => .error e
    | .ok b => .ok (s.setSlot i (sl.setBuf p b))

/-- PKT_GETBIT (42_packet.md R82). -/
def pktGetbit (s : State) (i : BitVec 8) (p : BitVec 1) (k : BitVec 8) : Except FaultCode Bool :=
  match s.getSlot i with
  | .error c => .error c
  | .ok sl => (sl.buf p).getBit k.toNat

/-- PKT_LENGTH (42_packet.md R83). -/
def pktLength (s : State) (i : BitVec 8) (p : BitVec 1) : Except FaultCode (BitVec 8) :=
  match s.getSlot i with
  | .error c => .error c
  | .ok sl => .ok (BitVec.ofNat 8 (sl.buf p).lenbits)

/-! ### Internal Slot operations (43_slot.md) -/

/-- SLOT_STAGE (43_slot.md R84). -/
def slotStage (s : State) (i : BitVec 8) : Except FaultCode (BitVec 1) :=
  match s.getSlot i with
  | .error c => .error c
  | .ok sl => .ok sl.stg

/-- SLOT_FLIP (43_slot.md R85). -/
def slotFlip (s : State) (i : BitVec 8) : Except FaultCode State :=
  match s.getSlot i with
  | .error c => .error c
  | .ok sl => .ok (s.setSlot i sl.flipped)

/-- SLOT_GETBIT (43_slot.md R86): of the active Packet only. -/
def slotGetbit (s : State) (i k : BitVec 8) : Except FaultCode Bool :=
  match s.getSlot i with
  | .error c => .error c
  | .ok sl => pktGetbit s i sl.act k

/-- SLOT_LENGTH (43_slot.md R87): of the active Packet only. -/
def slotLength (s : State) (i : BitVec 8) : Except FaultCode (BitVec 8) :=
  match s.getSlot i with
  | .error c => .error c
  | .ok sl => pktLength s i sl.act

/-! ### Reset -/

/-- The reset input (70_reset_and_hazards.md R116): the whole of R115, whatever the block holds; the configuration and
the requests still waiting are no part of what reset writes (assumption 11). -/
def State.resetInput (s : State) : State := State.resetWith s.nslots s.params s.pending

end Sys2Proof.Machine
end

