-- ==== Sys2Proof/Machine/Encoder.lean ====
section
/-! DEFINITION. The Command Encoder (41_encoder.md): what each request encodes to, and the evaluation of the encoder as an
operation that returns the response word and writes no state of the block (R66; assumption 6). -/

namespace Sys2Proof.Machine

/-- ENC_IDLE (41_encoder.md R71). -/
def encIdle : EncResult := .ok (fin [0xFF#8, 0x00#8])

/-- ENC_THROTTLE (41_encoder.md R72). -/
def encThrottle (p : Config.Params) (addr : BitVec 14) (speed : BitVec 7) (fwd estop : Bool) : EncResult :=
  if addrOutOfRange addr then .err .addrRange
  else if Config.maxSpeed < speed.toNat then .err .speedRange
  else .ok (fin (addrBytes addr ++ [0x3F#8, speedByte p speed fwd estop]))

/-- ENC_FG1 (41_encoder.md R73). -/
def encFg1 (addr : BitVec 14) (fbits : BitVec 5) : EncResult :=
  if addrOutOfRange addr then .err .addrRange
  else .ok (fin (addrBytes addr ++ [0x80#8 ||| fbits.setWidth 8]))

/-- ENC_FG2L and ENC_FG2H differ in the prefix only (41_encoder.md R74, R75). -/
def encFg2 (instrPrefix : Byte) (addr : BitVec 14) (fbits : BitVec 5) : EncResult :=
  if addrOutOfRange addr then .err .addrRange
  else if fbits.getLsbD 4 then .err .fbitsRange
  else .ok (fin (addrBytes addr ++ [instrPrefix ||| (fbits.setWidth 4).setWidth 8]))

/-- An evaluation of the encoder returns its response word; it writes nothing else (41_encoder.md R66). -/
def answerEnc (s : State) (r : EncResult) : Host.Outcome State Fault Refusal :=
  .next (s.respond (.encrsp r.word))

/-- ENC_IDLE. -/
def execEncIdle (s : State) : Host.Outcome State Fault Refusal := answerEnc s encIdle

/-- ENC_THROTTLE. -/
def execEncThrottle (addr : BitVec 14) (speed : BitVec 7) (fwd estop : Bool) (s : State) :
    Host.Outcome State Fault Refusal :=
  answerEnc s (encThrottle s.params addr speed fwd estop)

/-- ENC_FG1. -/
def execEncFg1 (addr : BitVec 14) (fbits : BitVec 5) (s : State) : Host.Outcome State Fault Refusal :=
  answerEnc s (encFg1 addr fbits)

/-- ENC_FG2L. -/
def execEncFg2l (addr : BitVec 14) (fbits : BitVec 5) (s : State) : Host.Outcome State Fault Refusal :=
  answerEnc s (encFg2 s.params.fg2lPrefix addr fbits)

/-- ENC_FG2H. -/
def execEncFg2h (addr : BitVec 14) (fbits : BitVec 5) (s : State) : Host.Outcome State Fault Refusal :=
  answerEnc s (encFg2 s.params.fg2hPrefix addr fbits)

/-- `ENCODE(req)`, the encoder as a function of the request word and the parameters (41_encoder.md R66, R67), for use
outside a step (the pseudo-instructions of 30_encoding.md R65). -/
def encodeRequest (p : Config.Params) (w : BitVec 32) : EncResult :=
  if encRsv w then .err .reserved
  else if encKind w = 0b000#3 then encIdle
  else if encKind w = 0b001#3 then encThrottle p (encAddr w) (encSpeed w) (encFwd w) (encEstop w)
  else if encKind w = 0b010#3 then encFg1 (encAddr w) (encFbits w)
  else if encKind w = 0b011#3 then encFg2 p.fg2lPrefix (encAddr w) (encFbits w)
  else if encKind w = 0b100#3 then encFg2 p.fg2hPrefix (encAddr w) (encFbits w)
  else .err .reserved

end Sys2Proof.Machine
end

