-- ==== Sys2Proof/Machine/Packet.lean ====
section
/-! DEFINITION. The Packet operations (42_packet.md) run directly. No port selects them: they run as steps of the Slot and
Refresh Buffer operations, over the same shared operations of Ops (assumption 9). -/

namespace Sys2Proof.Machine

/-- PKT_RESET (42_packet.md R80). -/
def execPktReset (slot : BitVec 8) (buf : BitVec 1) (s : State) : Host.Outcome State Fault Refusal :=
  finish s .raised ((pktReset s slot buf).map fun t => (t, .done))

/-- PKT_APPEND (42_packet.md R81). -/
def execPktAppend (slot : BitVec 8) (buf : BitVec 1) (cmd : List Byte) (s : State) :
    Host.Outcome State Fault Refusal :=
  finish s .raised ((pktAppend s slot buf cmd).map fun t => (t, .done))

/-- PKT_GETBIT (42_packet.md R82). -/
def execPktGetbit (slot : BitVec 8) (buf : BitVec 1) (i : BitVec 8) (s : State) : Host.Outcome State Fault Refusal :=
  finish s .raised ((pktGetbit s slot buf i).map fun b => (s, .bit b))

/-- PKT_LENGTH (42_packet.md R83). -/
def execPktLength (slot : BitVec 8) (buf : BitVec 1) (s : State) : Host.Outcome State Fault Refusal :=
  finish s .raised ((pktLength s slot buf).map fun n => (s, .length n))

end Sys2Proof.Machine
end

