-- ==== Sys2Proof/Machine/Refresh.lean ====
section
/-! DEFINITION. The Refresh Buffer and the port operations (44_refresh.md): NEXTBIT of the consumer; P_NOP, STAGE_RESET and
STAGE_APPEND of the producer. -/

namespace Sys2Proof.Machine

/-- The state with the read cursor at bit `i` of slot `k` (00_scope.md R17). -/
def State.setCursor (s : State) (k i : Nat) : State :=
  { s with curSlot := BitVec.ofNat 8 k, curBit := BitVec.ofNat 8 i }

/-- The cursor's move after bit `cur_bit` was read (44_refresh.md R89): to the next bit, or, after the last bit of the
Packet, to bit 0 of the next slot, which is flipped on entry. -/
def advance (s : State) : Except FaultCode State :=
  match slotLength s s.curSlot with
  | .error c => .error c
  | .ok len =>
    if s.curBit.toNat + 1 = len.toNat then
      let s2 := (s.curSlot.toNat + 1) % s.nslots
      slotFlip (s.setCursor s2 0) (BitVec.ofNat 8 s2)
    else .ok (s.setCursor s.curSlot.toNat (s.curBit.toNat + 1))

/-- NEXTBIT (44_refresh.md R89): the bit at the cursor, then the cursor's move. -/
def nextbit (s : State) : Except FaultCode (State × Bool) :=
  match slotGetbit s s.curSlot s.curBit with
  | .error c => .error c
  | .ok b =>
    match advance s with
    | .error c => .error c
    | .ok t => .ok (t, b)

/-- STAGE_RESET (44_refresh.md R95). -/
def stageReset (s : State) (slot : BitVec 8) : Except FaultCode State :=
  if s.nslots ≤ slot.toNat then .error .slotIndex
  else
    match slotStage s slot with
    | .error c => .error c
    | .ok p => pktReset s slot p

/-- STAGE_APPEND (44_refresh.md R96). -/
def stageAppend (s : State) (slot : BitVec 8) (n : BitVec 3) (b0 b1 b2 b3 b4 b5 : Byte) : Except FaultCode State :=
  if s.nslots ≤ slot.toNat then .error .slotIndex
  else if cmdLenOutOfRange n.toNat then .error .cmdLen
  else
    match slotStage s slot with
    | .error c => .error c
    | .ok p => pktAppend s slot p (cmdBytes n b0 b1 b2 b3 b4 b5)

/-- NEXTBIT. -/
def execNextbit (s : State) : Host.Outcome State Fault Refusal :=
  finish s .raised ((nextbit s).map fun (t, b) => (t, .bit b))

/-- P_NOP (44_refresh.md R94): no state is read or written; `pstat` is 0. -/
def execPNop (s : State) : Host.Outcome State Fault Refusal :=
  .next (s.respond (.pstat 0#3))

/-- STAGE_RESET. -/
def execStageReset (slot : BitVec 8) (s : State) : Host.Outcome State Fault Refusal :=
  finish s pstatOf ((stageReset s slot).map fun t => (t, .pstat 0#3))

/-- STAGE_APPEND. -/
def execStageAppend (slot : BitVec 8) (n : BitVec 3) (b0 b1 b2 b3 b4 b5 : Byte) (s : State) :
    Host.Outcome State Fault Refusal :=
  finish s pstatOf ((stageAppend s slot n b0 b1 b2 b3 b4 b5).map fun t => (t, .pstat 0#3))

end Sys2Proof.Machine
end

