-- ==== Sys2Proof/Machine/SlotOps.lean ====
section
/-! DEFINITION. The Slot operations (43_slot.md) run directly. No port selects them: they run inside STAGE_RESET,
STAGE_APPEND and NEXTBIT, over the same shared operations of Ops (assumption 9). -/

namespace Sys2Proof.Machine

/-- SLOT_STAGE (43_slot.md R84). -/
def execSlotStage (slot : BitVec 8) (s : State) : Host.Outcome State Fault Refusal :=
  finish s .raised ((slotStage s slot).map fun p => (s, .index p))

/-- SLOT_FLIP (43_slot.md R85). -/
def execSlotFlip (slot : BitVec 8) (s : State) : Host.Outcome State Fault Refusal :=
  finish s .raised ((slotFlip s slot).map fun t => (t, .done))

/-- SLOT_GETBIT (43_slot.md R86). -/
def execSlotGetbit (slot i : BitVec 8) (s : State) : Host.Outcome State Fault Refusal :=
  finish s .raised ((slotGetbit s slot i).map fun b => (s, .bit b))

/-- SLOT_LENGTH (43_slot.md R87). -/
def execSlotLength (slot : BitVec 8) (s : State) : Host.Outcome State Fault Refusal :=
  finish s .raised ((slotLength s slot).map fun n => (s, .length n))

end Sys2Proof.Machine
end

