-- ==== Sys2Proof/Machine/Dispatch.lean ====
section
/-! DEFINITION. Dispatch: one arm for each operation, in the order of spec/opcode_table.json. -/

namespace Sys2Proof.Machine

def exec (i : Instr) (s : State) : Host.Outcome State Fault Refusal :=
  match i with
  -- the Command Encoder (41_encoder.md)
  | .encIdle => Sys2Proof.Machine.execEncIdle s
  | .encThrottle addr speed fwd estop => Sys2Proof.Machine.execEncThrottle addr speed fwd estop s
  | .encFg1 addr fbits => Sys2Proof.Machine.execEncFg1 addr fbits s
  | .encFg2l addr fbits => Sys2Proof.Machine.execEncFg2l addr fbits s
  | .encFg2h addr fbits => Sys2Proof.Machine.execEncFg2h addr fbits s
  -- the producer port and the consumer port (44_refresh.md)
  | .pNop => Sys2Proof.Machine.execPNop s
  | .stageReset slot => Sys2Proof.Machine.execStageReset slot s
  | .stageAppend slot n b0 b1 b2 b3 b4 b5 => Sys2Proof.Machine.execStageAppend slot n b0 b1 b2 b3 b4 b5 s
  | .nextbit => Sys2Proof.Machine.execNextbit s
  -- internal Packet operations (42_packet.md)
  | .pktReset slot buf => Sys2Proof.Machine.execPktReset slot buf s
  | .pktAppend slot buf cmd => Sys2Proof.Machine.execPktAppend slot buf cmd s
  | .pktGetbit slot buf k => Sys2Proof.Machine.execPktGetbit slot buf k s
  | .pktLength slot buf => Sys2Proof.Machine.execPktLength slot buf s
  -- internal Slot operations (43_slot.md)
  | .slotStage slot => Sys2Proof.Machine.execSlotStage slot s
  | .slotFlip slot => Sys2Proof.Machine.execSlotFlip slot s
  | .slotGetbit slot k => Sys2Proof.Machine.execSlotGetbit slot k s
  | .slotLength slot => Sys2Proof.Machine.execSlotLength slot s

end Sys2Proof.Machine
end

