-- ==== Sys2Proof/Machine/Serve.lean ====
section
/-! DEFINITION. Serve: which request takes effect next, and what serving one request does: an operation of a port, the
rejection of a reserved word, or reset (00_scope.md R5, R6; 44_refresh.md R93; 41_encoder.md R67). -/

namespace Sys2Proof.Machine

/-- What stands at the ports when no request waits: the idle producer port's P_NOP (44_refresh.md R94) (assumption 1). -/
def idleRequest : Request := .port (.preq 0#64)

/-- The request that takes effect next. -/
def State.nextRequest (s : State) : Request :=
  match s.pending with
  | [] => idleRequest
  | r :: _ => r

/-- The state in which that request no longer waits. -/
def State.dropRequest (s : State) : State := { s with pending := s.pending.tail }

/-- A reserved word: the encoder answers `E_RESERVED` (30_encoding.md R60); producer dispatch raises `F_RESERVED_OP`
(30_encoding.md R61; 44_refresh.md R93). -/
def serveRejected (r : Reject) (s : State) : Host.Outcome State Fault Refusal :=
  match r with
  | .reservedEncReq => answerEnc s (.err .reserved)
  | .reservedOp => .next (s.takeFault .reservedOp (pstatOf .reservedOp))

/-- Serves a word at a port: runs the operation it decodes to. -/
def servePort (w : PortWord) (s : State) : Host.Outcome State Fault Refusal :=
  match decode w with
  | .instr i => exec i s
  | .rejected r => serveRejected r s

/-- Serves one request. -/
def serve (r : Request) (s : State) : Host.Outcome State Fault Refusal :=
  match r with
  | .port w => servePort w s
  | .reset => .next s.resetInput

end Sys2Proof.Machine
end

