-- ==== Sys2Proof/Machine/Step.lean ====
section
/-! DEFINITION. Step: one step serves the next request (00_scope.md R5: each operation is one atomic step). -/

namespace Sys2Proof.Machine

/-- One step of the block. -/
def step (s : State) : Host.Outcome State Fault Refusal := serve s.nextRequest s.dropRequest

/-- The state in which the request of these bits waits first, so that the very next step serves it (assumption 10);
unchanged where the bits are no request of a port. -/
def State.withFetchWord (s : State) (nbits w : Nat) : State :=
  match tableWord nbits w with
  | some p => { s with pending := .port p :: s.pending }
  | none => s

end Sys2Proof.Machine
end

