-- ==== Sys2Proof/Machine/Program.lean ====
section
/-! DEFINITION. Program: the pseudo-instructions and program lines of 30_encoding.md R64 and R65, as abstract syntax, and
the requests each line stands for. The spelling of a line as text is notation only (92_eei_decisions.md D21) and is left
out (assumption 15). -/

namespace Sys2Proof.Machine

/-- `<cmd>` of 30_encoding.md R64. -/
inductive Cmd where
  | idle
  | throttle (addr : BitVec 14) (speed : BitVec 7) (fwd estop : Bool)
  | fg1 (addr : BitVec 14) (fbits : BitVec 5)
  | fg2l (addr : BitVec 14) (fbits : BitVec 4)
  | fg2h (addr : BitVec 14) (fbits : BitVec 4)
  deriving DecidableEq, Repr

/-- The `ENCREQ` of a command (30_encoding.md R47, R65). -/
def Cmd.request : Cmd → BitVec 32
  | .idle => encReqWord 0#5 false false 0#7 0#14 0b000#3
  | .throttle addr speed fwd estop => encReqWord 0#5 estop fwd speed addr 0b001#3
  | .fg1 addr fbits => encReqWord fbits false false 0#7 addr 0b010#3
  | .fg2l addr fbits => encReqWord (fbits.setWidth 5) false false 0#7 addr 0b011#3
  | .fg2h addr fbits => encReqWord (fbits.setWidth 5) false false 0#7 addr 0b100#3

/-- The STAGE_APPEND word of command bytes `q` to a slot (30_encoding.md R49). -/
def appendWord (slot : BitVec 8) (q : List Byte) : BitVec 64 :=
  preqWord (byteAt q 5) (byteAt q 4) (byteAt q 3) (byteAt q 2) (byteAt q 1) (byteAt q 0) slot
    (BitVec.ofNat 3 q.length) 0b10#2

/-- The STAGE_APPEND word of an accepted encoder response: `{ENCRSP[55:8], slot, 000, ENCRSP[5:3], 10}`
(30_encoding.md R49). -/
def appendOfResponse (slot : BitVec 8) (rsp : BitVec 56) : BitVec 64 :=
  rsp.extractLsb' 8 48 ++ slot ++ 0#3 ++ rsp.extractLsb' 3 3 ++ 0b10#2

/-- `APPEND s, <cmd>` (30_encoding.md R65): the request to issue, or the rejection status to report, where nothing is
issued. -/
def appendCmd (p : Config.Params) (slot : BitVec 8) (c : Cmd) : Except EncError PortWord :=
  match encodeRequest p c.request with
  | .ok q => .ok (.preq (appendOfResponse slot (EncResult.ok q).word))
  | .err e => .error e

/-- A program line of 30_encoding.md R64, and the pseudo-instructions of R65. -/
inductive Line where
  /-- `NEXTBIT *k` -/
  | nextbit (k : Nat)
  /-- `NOP` -/
  | nop
  /-- `RESET s` -/
  | reset (slot : BitVec 8)
  /-- `APPEND s, BYTES b0, ..., bn` -/
  | appendBytes (slot : BitVec 8) (q : List Byte)
  /-- `APPEND s, <cmd>` -/
  | append (slot : BitVec 8) (c : Cmd)
  /-- `SET s, <cmd1> [; <cmd2> [; <cmd3>]]` -/
  | set (slot : BitVec 8) (cs : List Cmd)
  deriving DecidableEq, Repr

/-- The word of `RESET s`. -/
def resetWord (slot : BitVec 8) : PortWord := .preq (preqWord 0#8 0#8 0#8 0#8 0#8 0#8 slot 0#3 0b01#2)

/-- The words a list of `APPEND s, <cmd>` issues: a rejected command issues none (30_encoding.md R65). -/
def appendCmds (p : Config.Params) (slot : BitVec 8) (cs : List Cmd) : List PortWord :=
  cs.filterMap fun c => (appendCmd p slot c).toOption

/-- The rejection statuses a list of `APPEND s, <cmd>` reports (30_encoding.md R65). -/
def appendRejections (p : Config.Params) (slot : BitVec 8) (cs : List Cmd) : List EncError :=
  cs.filterMap fun c =>
    match appendCmd p slot c with
    | .ok _ => none
    | .error e => some e

/-- The words a line issues, in order (30_encoding.md R64, R65). An `APPEND s, BYTES` of more than six bytes has no
`PREQ` word and issues none. -/
def Line.words (p : Config.Params) : Line → List PortWord
  | .nextbit k => List.replicate k .nbReq
  | .nop => [.preq 0#64]
  | .reset slot => [resetWord slot]
  | .appendBytes slot q => if q.length ≤ Config.maxCmdLen then [.preq (appendWord slot q)] else []
  | .append slot c => appendCmds p slot [c]
  | .set slot cs => resetWord slot :: appendCmds p slot cs

/-- The rejection statuses a line reports instead of issuing a word (30_encoding.md R65; 60_exceptions.md R97). -/
def Line.rejections (p : Config.Params) : Line → List EncError
  | .append slot c => appendRejections p slot [c]
  | .set slot cs => appendRejections p slot cs
  | .nextbit _ => []
  | .nop => []
  | .reset _ => []
  | .appendBytes _ _ => []

/-- The requests of a program, lines in the order written (20_memory.md R42: one interleaving). -/
def programRequests (p : Config.Params) (ls : List Line) : List Request :=
  (ls.flatMap (Line.words p)).map .port

end Sys2Proof.Machine
end

