-- ==== Sys2Proof/WellFormed.lean ====
section
/-! DEFINITION. WellFormed: which operand values the spec calls legal (30_encoding.md R47, R49, R62; 42_packet.md R77).
Every value of a field has an encoding, legal or not: an operation with an illegal one is no reserved encoding but is
rejected or faults (R62), so no meaning and no encoder asks for this check. -/

namespace Sys2Proof

/-- A well-formed command byte sequence (42_packet.md R77): 3 to 6 bytes whose XOR is zero. -/
def CmdWellFormed (c : List Byte) : Bool :=
  decide (Config.minCmdLen ≤ c.length) && decide (c.length ≤ Config.maxCmdLen) && (Machine.chk c == 0#8)

/-- The legal operand values of each operation, in a block of `slots` Slots. -/
def Instr.wellFormed (slots : Nat) : Instr → Bool
  | .encIdle => true
  | .encThrottle addr speed _ _ => !Machine.addrOutOfRange addr && decide (speed.toNat ≤ Config.maxSpeed)
  | .encFg1 addr _ => !Machine.addrOutOfRange addr
  | .encFg2l addr fbits => !Machine.addrOutOfRange addr && !fbits.getLsbD 4
  | .encFg2h addr fbits => !Machine.addrOutOfRange addr && !fbits.getLsbD 4
  | .pNop => true
  | .stageReset slot => decide (slot.toNat < slots)
  | .stageAppend slot n b0 b1 b2 b3 b4 b5 =>
    decide (slot.toNat < slots) && !Machine.cmdLenOutOfRange n.toNat &&
      CmdWellFormed (Machine.cmdBytes n b0 b1 b2 b3 b4 b5)
  | .nextbit => true
  | .pktReset slot _ => decide (slot.toNat < slots)
  | .pktAppend slot _ cmd => decide (slot.toNat < slots) && CmdWellFormed cmd
  | .pktGetbit slot _ i => decide (slot.toNat < slots) && decide (i.toNat < 8 * Config.capBytes)
  | .pktLength slot _ => decide (slot.toNat < slots)
  | .slotStage slot => decide (slot.toNat < slots)
  | .slotFlip slot => decide (slot.toNat < slots)
  | .slotGetbit slot i => decide (slot.toNat < slots) && decide (i.toNat < 8 * Config.capBytes)
  | .slotLength slot => decide (slot.toNat < slots)

end Sys2Proof
end

