-- ==== Sys2Proof/Safety.lean ====
section
/-! DEFINITION. Safety: the terms claims are made in: the invariants of 10_state.md R29 to R31, the state after reset with
its unspecified bytes left open (70_reset_and_hazards.md R115), what a run of NEXTBITs returns (44_refresh.md R91, R92), the
fields of a response word (30_encoding.md R48) and the wire format's reading of a bit stream (30_encoding.md R59). -/

namespace Sys2Proof.Machine

/-- The next state of an outcome, where there is one. -/
def nextState (o : Host.Outcome State Fault Refusal) : Option State :=
  match o with
  | .next t => some t
  | .fault _ => none
  | .refused _ => none

/-! ### Fields of a response -/

/-- `ENCRSP.status` (30_encoding.md R48). -/
def rspStatus (w : BitVec 56) : BitVec 3 := w.extractLsb' 0 3

/-- `ENCRSP.n` (30_encoding.md R48). -/
def rspN (w : BitVec 56) : BitVec 3 := w.extractLsb' 3 3

/-- Command byte `b_k` of an `ENCRSP`, in bits `15+8k : 8+8k` (30_encoding.md R48). -/
def rspByte (w : BitVec 56) (k : Nat) : Byte := w.extractLsb' (8 + 8 * k) 8

/-- The command an `ENCRSP` carries: its first `n` bytes. -/
def rspCmd (w : BitVec 56) : List Byte := (List.range (rspN w).toNat).map (rspByte w)

/-- The response word carries the command `q` (30_encoding.md R48): status 0, `n` its length, bits 7:6 zero, its bytes, and
zero in the bytes beyond its end. -/
structure RspCarries (w : BitVec 56) (q : List Byte) : Prop where
  status : rspStatus w = 0#3
  n : (rspN w).toNat = q.length
  zeros : w.extractLsb' 6 2 = 0#2
  bytes : ∀ k, k < 6 → rspByte w k = q.getD k 0#8

/-- The response word carries the address and instruction bytes `body` and then the XOR of them all (30_encoding.md R56). -/
def RspCommand (w : BitVec 56) (body : List Byte) : Prop :=
  RspCarries w (body ++ [body.foldl (· ^^^ ·) 0#8])

/-- The address field in numbers (30_encoding.md R51): one byte `a` up to 127, else `192 + a div 256` and `a mod 256`. -/
def wireAddr (a : Nat) : List Byte :=
  if a ≤ 127 then [BitVec.ofNat 8 a] else [BitVec.ofNat 8 (192 + a / 256), BitVec.ofNat 8 (a % 256)]

/-- The fault an operation's response reports, NONE where it completed (60_exceptions.md R108). -/
def Response.faultCode : Response → BitVec 3
  | .pstat c => c
  | .raised c => c.code
  | .nothing => 0#3
  | .encrsp _ => 0#3
  | .bit _ => 0#3
  | .index _ => 0#3
  | .length _ => 0#3
  | .done => 0#3

/-! ### Agents -/

/-- Where an operation is selected (00_scope.md R5; 60_exceptions.md R112). -/
inductive Port where
  | encoder
  | producer
  | consumer
  /-- No port selects it (30_encoding.md, operation map). -/
  | internal
  deriving DecidableEq, Repr

/-- The port an operation is selected at (30_encoding.md, operation map). -/
def portOf : Instr → Port
  | .encIdle => .encoder
  | .encThrottle _ _ _ _ => .encoder
  | .encFg1 _ _ => .encoder
  | .encFg2l _ _ => .encoder
  | .encFg2h _ _ => .encoder
  | .pNop => .producer
  | .stageReset _ => .producer
  | .stageAppend _ _ _ _ _ _ _ _ => .producer
  | .nextbit => .consumer
  | .pktReset _ _ => .internal
  | .pktAppend _ _ _ => .internal
  | .pktGetbit _ _ _ => .internal
  | .pktLength _ _ => .internal
  | .slotStage _ => .internal
  | .slotFlip _ => .internal
  | .slotGetbit _ _ => .internal
  | .slotLength _ => .internal

/-! ### Reading the memory -/

/-- The byte at address `a` of physical buffer `p` of slot `k`, where the slot exists (10_state.md R22). -/
def State.byteAt (s : State) (k : Nat) (p : BitVec 1) (a : Nat) : Option Byte :=
  (s.slots[k]?).map fun sl => (sl.buf p).mem.read a

/-! ### Invariants -/

/-- The content of a Packet: its first `nbytes` bytes (10_state.md R22, R23). -/
def Buffer.content (b : Buffer) : List Byte := (List.range b.nbytes.toNat).map b.mem.read

/-- The bits of a Packet, `0 .. lenbits - 1` (20_memory.md R32). -/
def Buffer.bits (b : Buffer) : List Bool := (List.range b.lenbits).map b.bitAt

/-- Well-formed content (10_state.md R29): the frames of `ncmd` well-formed commands, back to back; the byte store is in
its canonical form. -/
structure Buffer.WellFormed (b : Buffer) : Prop where
  canonical : b.mem.wf = true
  content : ∃ cmds : List (List Byte), cmds.length = b.ncmd.toNat ∧
    (∀ c ∈ cmds, CmdWellFormed c = true) ∧ b.content = cmds.flatMap frame

/-- A Slot of a reachable state: both Packets have well-formed content, and the active one is never empty
(10_state.md R29, R30). -/
structure Slot.WellFormed (sl : Slot) : Prop where
  buf0 : sl.buf0.WellFormed
  buf1 : sl.buf1.WellFormed
  activeNonempty : 1 ≤ sl.active.ncmd.toNat

/-- The invariants of 10_state.md section 8, with the bound of 00_scope.md R7 on SLOTS. -/
structure State.Inv (s : State) : Prop where
  slotsPos : 1 ≤ s.nslots
  slotsLe : s.nslots ≤ Config.maxSlots
  slots : ∀ sl ∈ s.slots, sl.WellFormed
  cursor : ∃ sl, s.slot? s.curSlot = some sl ∧ s.curBit.toNat < sl.active.lenbits

/-! ### Bytes that are no content -/

/-- Two Packet buffers of one content: they may differ in the bytes at and beyond `nbytes` only (10_state.md R22). -/
structure Buffer.Agrees (b b' : Buffer) : Prop where
  canonical : b.mem.wf = true
  canonical' : b'.mem.wf = true
  nbytes : b'.nbytes = b.nbytes
  ncmd : b'.ncmd = b.ncmd
  content : b'.content = b.content

/-- Two Slots of one role bit whose buffers hold the same contents. -/
structure Slot.Agrees (sl sl' : Slot) : Prop where
  act : sl'.act = sl.act
  buf0 : sl.buf0.Agrees sl'.buf0
  buf1 : sl.buf1.Agrees sl'.buf1

/-- Two states that may differ only in bytes that are no content, and in what the operation before returned. -/
structure State.Agrees (s s' : State) : Prop where
  slots : List.Forall₂ Slot.Agrees s.slots s'.slots
  curSlot : s'.curSlot = s.curSlot
  curBit : s'.curBit = s.curBit
  fault : s'.fault = s.fault
  params : s'.params = s.params
  pending : s'.pending = s.pending

/-- A claim about the block takes this as a premise on the state it ends in (60_exceptions.md R106). -/
def State.faultFree (s : State) : Prop := s.fault = .none

/-! ### Reset -/

/-- A Slot after reset with its unspecified bytes left open (70_reset_and_hazards.md R115). -/
structure Slot.AtReset (sl : Slot) : Prop where
  act : sl.act = 0#1
  nbytes0 : sl.buf0.nbytes = 7#5
  ncmd0 : sl.buf0.ncmd = 1#2
  idle : sl.buf0.content = [0xFF#8, 0xFF#8, 0xFD#8, 0xFE#8, 0x00#8, 0x7F#8, 0xFF#8]
  nbytes1 : sl.buf1.nbytes = 0#5
  ncmd1 : sl.buf1.ncmd = 0#2

/-- The block after reset with its unspecified bytes left open (70_reset_and_hazards.md R115). -/
structure State.AtReset (s : State) : Prop where
  slots : ∀ sl ∈ s.slots, sl.AtReset
  curSlot : s.curSlot = 0#8
  curBit : s.curBit = 0#8
  fault : s.fault = .none

/-! ### Runs -/

/-- The bits `k` NEXTBITs in a row return, and the state they leave; none where one of them returns no bit. -/
def nextbits : Nat → State → Option (List Bool × State)
  | 0, s => some ([], s)
  | k + 1, s =>
    match nextState (exec .nextbit s) with
    | none => none
    | some t =>
      match t.resp with
      | .bit b => (nextbits k t).map fun (bs, u) => (b :: bs, u)
      | _ => none

/-- The responses of `k` steps, and the state they leave (44_refresh.md R92: what a claim observes). -/
def observe : Nat → State → Option (List Response × State)
  | 0, s => some ([], s)
  | k + 1, s =>
    match nextState (step s) with
    | none => none
    | some t => (observe k t).map fun (rs, u) => (t.resp :: rs, u)

/-! ### Reading a bit stream -/

/-- Reads a bit stream by the wire format alone (30_encoding.md R57, R59): a run of ones, then bytes each after a zero start
bit, ended by a one. Answers, for each command, the ones before it and its bytes; the stop bit counts among the ones
before the next command. `q` holds the bytes of the command being read, `n` the ones seen before it. -/
def deframeFrom : Option (List Byte) → Nat → List Bool → List (Nat × List Byte)
  | none, _, [] => []
  | none, n, true :: rest => deframeFrom none (n + 1) rest
  | none, n, false :: b7 :: b6 :: b5 :: b4 :: b3 :: b2 :: b1 :: b0 :: rest =>
    deframeFrom (some [byteOfBits b7 b6 b5 b4 b3 b2 b1 b0]) n rest
  | some q, n, [] => [(n, q)]
  | some q, n, true :: rest => (n, q) :: deframeFrom none 1 rest
  | some q, n, false :: b7 :: b6 :: b5 :: b4 :: b3 :: b2 :: b1 :: b0 :: rest =>
    deframeFrom (some (q ++ [byteOfBits b7 b6 b5 b4 b3 b2 b1 b0])) n rest
  | _, _, _ => []

/-- The reference deframer: a reader outside the block (95_test_vectors.md section 2.9). -/
def deframe (bits : List Bool) : List (Nat × List Byte) := deframeFrom none 0 bits

/-- The bits of a list of bytes, most significant first (20_memory.md R35). -/
def bitsOf (bytes : List Byte) : List Bool := bytes.flatMap bits8

end Sys2Proof.Machine
end

