-- ==== Sys2Proof/Certificates/Slice0/Obligations.lean ====
section
/-! DEFINITION. Obligations: the statements for the provers, each a proposition about the model. Every one that names a
state holds for every state that meets its hypotheses, so for every number of Slots, every value of the parameters and
every interleaving of the two agents. A statement about `step` serves the head of `State.pending`: that the order in which
requests take effect stands in that list is the model's choice (assumption 1). -/

open Sys2Proof Sys2Proof.Machine

/-! ### The Command Encoder (41_encoder.md) -/

/-- 41_encoder.md R71: ENC_IDLE, selected by kind 000, returns `FF 00 FF` and changes nothing. -/
def Obligations.EncIdleReturnsIdleCommand : Prop :=
  (∀ w : BitVec 32, w.getLsbD 31 = false → w.extractLsb' 0 3 = 0#3 → decode (.encreq w) = .instr .encIdle) ∧
  ∀ s : State, ∃ r, exec .encIdle s = .next { s with resp := .encrsp r } ∧
    RspCarries r [0xFF#8, 0x00#8, 0xFF#8]

/-- 41_encoder.md R72: ENC_THROTTLE, selected by kind 001: address range, then speed range, then the command
`ADDR, 3F, speed byte, checksum`. -/
def Obligations.EncThrottleReturnsThrottleCommand : Prop :=
  (∀ w : BitVec 32, w.getLsbD 31 = false → w.extractLsb' 0 3 = 1#3 →
    decode (.encreq w) =
      .instr (.encThrottle (w.extractLsb' 3 14) (w.extractLsb' 17 7) (w.getLsbD 24) (w.getLsbD 25))) ∧
  ∀ (s : State) (addr : BitVec 14) (speed : BitVec 7) (fwd estop : Bool),
    (addr.toNat < 1 ∨ 9999 < addr.toNat →
      exec (.encThrottle addr speed fwd estop) s = .next { s with resp := .encrsp 1#56 }) ∧
    (1 ≤ addr.toNat → addr.toNat ≤ 9999 → 126 < speed.toNat →
      exec (.encThrottle addr speed fwd estop) s = .next { s with resp := .encrsp 2#56 }) ∧
    (1 ≤ addr.toNat → addr.toNat ≤ 9999 → speed.toNat ≤ 126 →
      ∃ r, exec (.encThrottle addr speed fwd estop) s = .next { s with resp := .encrsp r } ∧
        RspCommand r (wireAddr addr.toNat ++ [0x3F#8,
          BitVec.ofNat 8
            ((if fwd = true ∧ (estop = true → s.params.estopDirBit = true) then 128 else 0) +
             (if estop = true then 1 else if speed.toNat = 0 then 0 else speed.toNat + 1))]))

/-- 41_encoder.md R73: ENC_FG1, selected by kind 010: address range, then `ADDR, 100FFFFF, checksum`. -/
def Obligations.EncFg1ReturnsFunctionGroup1 : Prop :=
  (∀ w : BitVec 32, w.getLsbD 31 = false → w.extractLsb' 0 3 = 2#3 →
    decode (.encreq w) = .instr (.encFg1 (w.extractLsb' 3 14) (w.extractLsb' 26 5))) ∧
  ∀ (s : State) (addr : BitVec 14) (fbits : BitVec 5),
    (addr.toNat < 1 ∨ 9999 < addr.toNat → exec (.encFg1 addr fbits) s = .next { s with resp := .encrsp 1#56 }) ∧
    (1 ≤ addr.toNat → addr.toNat ≤ 9999 →
      ∃ r, exec (.encFg1 addr fbits) s = .next { s with resp := .encrsp r } ∧
        RspCommand r (wireAddr addr.toNat ++ [BitVec.ofNat 8 (128 + fbits.toNat)]))

/-- 41_encoder.md R74: ENC_FG2L, selected by kind 011: address range, then `fbits[4]`, then
`ADDR, FG2L_PREFIX | fbits[3:0], checksum`, whatever the prefix. -/
def Obligations.EncFg2lReturnsFunctionGroup2Low : Prop :=
  (∀ w : BitVec 32, w.getLsbD 31 = false → w.extractLsb' 0 3 = 3#3 →
    decode (.encreq w) = .instr (.encFg2l (w.extractLsb' 3 14) (w.extractLsb' 26 5))) ∧
  ∀ (s : State) (addr : BitVec 14) (fbits : BitVec 5),
    (addr.toNat < 1 ∨ 9999 < addr.toNat → exec (.encFg2l addr fbits) s = .next { s with resp := .encrsp 1#56 }) ∧
    (1 ≤ addr.toNat → addr.toNat ≤ 9999 → 16 ≤ fbits.toNat →
      exec (.encFg2l addr fbits) s = .next { s with resp := .encrsp 3#56 }) ∧
    (1 ≤ addr.toNat → addr.toNat ≤ 9999 → fbits.toNat < 16 →
      ∃ r, exec (.encFg2l addr fbits) s = .next { s with resp := .encrsp r } ∧
        RspCommand r (wireAddr addr.toNat ++ [s.params.fg2lPrefix ||| BitVec.ofNat 8 fbits.toNat]))

/-- 41_encoder.md R75: ENC_FG2H, selected by kind 100: as ENC_FG2L with `FG2H_PREFIX`. -/
def Obligations.EncFg2hReturnsFunctionGroup2High : Prop :=
  (∀ w : BitVec 32, w.getLsbD 31 = false → w.extractLsb' 0 3 = 4#3 →
    decode (.encreq w) = .instr (.encFg2h (w.extractLsb' 3 14) (w.extractLsb' 26 5))) ∧
  ∀ (s : State) (addr : BitVec 14) (fbits : BitVec 5),
    (addr.toNat < 1 ∨ 9999 < addr.toNat → exec (.encFg2h addr fbits) s = .next { s with resp := .encrsp 1#56 }) ∧
    (1 ≤ addr.toNat → addr.toNat ≤ 9999 → 16 ≤ fbits.toNat →
      exec (.encFg2h addr fbits) s = .next { s with resp := .encrsp 3#56 }) ∧
    (1 ≤ addr.toNat → addr.toNat ≤ 9999 → fbits.toNat < 16 →
      ∃ r, exec (.encFg2h addr fbits) s = .next { s with resp := .encrsp r } ∧
        RspCommand r (wireAddr addr.toNat ++ [s.params.fg2hPrefix ||| BitVec.ofNat 8 fbits.toNat]))

/-- 41_encoder.md R66: an evaluation of the encoder writes no state, and its response is a function of the request and the
parameters only: states that agree on the parameters get one response. That an evaluation is run as an operation which
leaves its response in `resp` is the model's form (assumption 6). -/
def Obligations.EncoderWritesNoState : Prop :=
  ∀ (i : Instr), portOf i = .encoder → ∀ s : State, ∃ r : BitVec 56, ∀ t : State, t.params = s.params →
    exec i t = .next { t with resp := .encrsp r }

/-- 60_exceptions.md R97, R98 and 30_encoding.md R60: the status an encoder request gets, and the order of its causes; a
rejected request's response is the status alone, and nothing else changes. -/
def Obligations.EncoderStatusAndPriority : Prop :=
  ∀ (s : State) (w : BitVec 32) (rest : List Request),
    ∃ r, step { s with pending := .port (.encreq w) :: rest } = .next { s with pending := rest, resp := .encrsp r } ∧
      rspStatus r =
        (if w.getLsbD 31 = true ∨ 5 ≤ (w.extractLsb' 0 3).toNat then 4#3
         else if w.extractLsb' 0 3 ≠ 0#3 ∧
            ((w.extractLsb' 3 14).toNat < 1 ∨ 9999 < (w.extractLsb' 3 14).toNat) then 1#3
         else if w.extractLsb' 0 3 = 1#3 ∧ 126 < (w.extractLsb' 17 7).toNat then 2#3
         else if (w.extractLsb' 0 3 = 3#3 ∨ w.extractLsb' 0 3 = 4#3) ∧ w.getLsbD 30 = true then 3#3
         else 0#3) ∧
      (rspStatus r ≠ 0#3 → r = (rspStatus r).setWidth 56)

/-- 41_encoder.md R76 and 42_packet.md R77: every command the encoder returns with status 0 is well formed, of 3 to 5
bytes, and frames into 7 to 9 bytes. -/
def Obligations.EncoderCommandsAreWellFormed : Prop :=
  ∀ (i : Instr) (s t : State) (r : BitVec 56), portOf i = .encoder → exec i s = .next t → t.resp = .encrsp r →
    rspStatus r = 0#3 →
      CmdWellFormed (rspCmd r) = true ∧ (rspCmd r).length ≤ 5 ∧
        7 ≤ (frame (rspCmd r)).length ∧ (frame (rspCmd r)).length ≤ 9

/-- The round trip of 95_test_vectors.md S5, on 30_encoding.md R53 to R55: the response to a legal request determines the
fields its command carries. THROTTLE: the address and the emergency stop; without emergency stop the speed and the
direction; with it the direction where `ESTOP_DIR_BIT` is true (neither speed nor direction otherwise: V-E11, V-E12). FG1:
the address and the function bits. FG2L and FG2H: the address for every prefix, the function bits for a prefix whose low
four bits are 0. With the default prefixes also the kind. -/
def Obligations.EncodedCommandDeterminesItsFields : Prop :=
  (∀ (s : State) (a a' : BitVec 14) (v v' : BitVec 7) (d d' e e' : Bool),
    1 ≤ a.toNat → a.toNat ≤ 9999 → 1 ≤ a'.toNat → a'.toNat ≤ 9999 → v.toNat ≤ 126 → v'.toNat ≤ 126 →
    exec (.encThrottle a v d e) s = exec (.encThrottle a' v' d' e') s →
    a = a' ∧ e = e' ∧ (e = false → v = v' ∧ d = d') ∧ (e = true → s.params.estopDirBit = true → d = d')) ∧
  (∀ (s : State) (a a' : BitVec 14) (f f' : BitVec 5),
    1 ≤ a.toNat → a.toNat ≤ 9999 → 1 ≤ a'.toNat → a'.toNat ≤ 9999 →
    exec (.encFg1 a f) s = exec (.encFg1 a' f') s → a = a' ∧ f = f') ∧
  (∀ (s : State) (a a' : BitVec 14) (f f' : BitVec 5),
    1 ≤ a.toNat → a.toNat ≤ 9999 → 1 ≤ a'.toNat → a'.toNat ≤ 9999 → f.toNat < 16 → f'.toNat < 16 →
    exec (.encFg2l a f) s = exec (.encFg2l a' f') s →
    a = a' ∧ (s.params.fg2lPrefix.extractLsb' 0 4 = 0#4 → f = f')) ∧
  (∀ (s : State) (a a' : BitVec 14) (f f' : BitVec 5),
    1 ≤ a.toNat → a.toNat ≤ 9999 → 1 ≤ a'.toNat → a'.toNat ≤ 9999 → f.toNat < 16 → f'.toNat < 16 →
    exec (.encFg2h a f) s = exec (.encFg2h a' f') s →
    a = a' ∧ (s.params.fg2hPrefix.extractLsb' 0 4 = 0#4 → f = f')) ∧
  ∀ (s : State) (i j : Instr) (v w : BitVec 32), encode i = some (.encreq v) → encode j = some (.encreq w) →
    i.wellFormed s.nslots = true → j.wellFormed s.nslots = true →
    s.params.fg2lPrefix = 0xB0#8 → s.params.fg2hPrefix = 0xA0#8 → exec i s = exec j s →
    v.extractLsb' 0 3 = w.extractLsb' 0 3

/-! ### Encodings (30_encoding.md) -/

/-- 30_encoding.md R47, R49, R50: the word an operation encodes to decodes to that operation, with every operand at every
value its field admits. -/
def Obligations.DecodeOfEncodeIsTheOperation : Prop :=
  ∀ (i : Instr) (w : PortWord), encode i = some w → decode w = .instr i

/-- 30_encoding.md R47, R49: a word that decodes to an operation is that operation's word in every bit the operation reads;
the other bits are ignored. The masks are those of the fields of each operation. -/
def Obligations.EncodeOfDecodeKeepsUsedBits : Prop :=
  (∀ (w : BitVec 32) (i : Instr), decode (.encreq w) = .instr i →
    encode i = some (.encreq (w &&&
      (if w.extractLsb' 0 3 = 0#3 then 0x80000007#32
       else if w.extractLsb' 0 3 = 1#3 then 0x83FFFFFF#32 else 0xFC01FFFF#32)))) ∧
  ∀ (w : BitVec 64) (i : Instr), decode (.preq w) = .instr i →
    encode i = some (.preq (w &&&
      (if w.extractLsb' 0 2 = 0#2 then 0x00000000000000E3#64
       else if w.extractLsb' 0 2 = 1#2 then 0x000000000000FFE3#64 else 0xFFFFFFFFFFFFFFFF#64)))

/-- 30_encoding.md R60, R61: exactly the reserved words are rejected, each by its name; every other word is an operation. -/
def Obligations.ExactlyReservedWordsAreRejected : Prop :=
  (∀ w : BitVec 32, decode (.encreq w) = .rejected .reservedEncReq ↔
    (w.getLsbD 31 = true ∨ 5 ≤ (w.extractLsb' 0 3).toNat)) ∧
  (∀ w : BitVec 64, decode (.preq w) = .rejected .reservedOp ↔
    (w.extractLsb' 0 2 = 3#2 ∨ w.extractLsb' 5 3 ≠ 0#3)) ∧
  (∀ (p : PortWord) (r : Reject), decode p = .rejected r →
    (∃ w, p = .encreq w ∧ r = .reservedEncReq) ∨ (∃ w, p = .preq w ∧ r = .reservedOp))

/-- 60_exceptions.md R112: the rights are the port wiring: the encoder port selects encoder evaluations, the producer port
P_NOP, STAGE_RESET and STAGE_APPEND, the consumer port NEXTBIT, and no port selects an internal operation, which has no
word. -/
def Obligations.EachPortSelectsItsOwnOperations : Prop :=
  (∀ (w : BitVec 32) (i : Instr), decode (.encreq w) = .instr i → portOf i = .encoder) ∧
  (∀ (w : BitVec 64) (i : Instr), decode (.preq w) = .instr i → portOf i = .producer) ∧
  (∀ i : Instr, decode .nbReq = .instr i ↔ i = .nextbit) ∧
  ∀ i : Instr, encode i = none ↔ portOf i = .internal

/-- 30_encoding.md R47, R49, R50: words written out from the field tables decode to the operation they stand for. -/
def Obligations.SampleWordsDecode : Prop :=
  decode (.encreq 0b00000000000000000000000000000000#32) = .instr .encIdle ∧
  decode (.encreq 0b00000001011111100000000000011001#32) = .instr (.encThrottle 3#14 63#7 true false) ∧
  decode (.encreq 0b01000100000000000000000000011010#32) = .instr (.encFg1 3#14 0b10001#5) ∧
  decode (.encreq 0b00111100000000000000000000011011#32) = .instr (.encFg2l 3#14 0b01111#5) ∧
  decode (.encreq 0b00101000000000000000000000011100#32) = .instr (.encFg2h 3#14 0b01010#5) ∧
  decode (.preq 0x0000000000000000#64) = .instr .pNop ∧
  decode (.preq 0x0000000000000101#64) = .instr (.stageReset 1#8) ∧
  decode (.preq 0x0000FCC03F030112#64) =
    .instr (.stageAppend 1#8 4#3 0x03#8 0x3F#8 0xC0#8 0xFC#8 0x00#8 0x00#8) ∧
  decode .nbReq = .instr .nextbit

/-! ### The step -/

/-- 00_scope.md R5, 20_memory.md R40: a step is one whole operation: where the request at the head of `pending` decodes to an
operation, the step is that operation on the state in which the request no longer waits. That the order in which requests
take effect, which the spec leaves open (20_memory.md R42, 60_exceptions.md R111), stands in `pending` is the model's choice
(assumption 1). -/
def Obligations.StepRunsTheDecodedOperation : Prop :=
  ∀ (s : State) (w : PortWord) (i : Instr) (rest : List Request),
    s.pending = .port w :: rest → decode w = .instr i → step s = exec i { s with pending := rest }

/-- With no request waiting the producer port is idle, and a step is P_NOP (44_refresh.md R94). That an empty queue stands
for an idle producer port is the model's choice (assumption 1). -/
def Obligations.IdleStepIsNop : Prop :=
  ∀ s : State, s.pending = [] → step s = .next { s with resp := .pstat 0#3 }

/-- 60_exceptions.md R106, 44_refresh.md R92, 00_scope.md R18: no request stops the block, in any state, and a run of any
number of steps has that many responses. -/
def Obligations.StepAlwaysHasANextState : Prop :=
  (∀ s : State, ∃ t, step s = .next t) ∧
  ∀ (k : Nat) (s : State), ∃ (rs : List Response) (t : State), observe k s = some (rs, t) ∧ rs.length = k

/-- 10_state.md R20, R21: no step changes the parameters or the number of Slots. -/
def Obligations.StepKeepsTheConfiguration : Prop :=
  ∀ s t : State, step s = .next t → t.params = s.params ∧ t.slots.length = s.slots.length

/-- 10_state.md R29, R30, R31: every step keeps the invariants: content of whole frames in canonical memory, an active
Packet never empty, the cursor in range. -/
def Obligations.StepKeepsInvariants : Prop :=
  ∀ s t : State, s.Inv → step s = .next t → t.Inv

/-- The block after reset meets the invariants (10_state.md section 8), for every number of Slots and all parameters. -/
def Obligations.ResetMeetsInvariants : Prop :=
  ∀ (n : Nat) (p : Config.Params) (rs : List Request), 1 ≤ n → n ≤ 256 → (State.resetWith n p rs).Inv

/-- 70_reset_and_hazards.md R115: the machine right after reset: for every Slot buffer 0 active with the idle frame, buffer 1
empty; cursor (0, 0); fault NONE. That it has two Slots, the default parameters, nothing waiting and nothing returned yet
is the model's choice (assumptions 1, 2, 4 and 5). -/
def Obligations.ResetStateIsAsSpecified : Prop :=
  State.reset.AtReset ∧ State.reset.slots.length = 2 ∧
    State.reset.params = { fg2lPrefix := 0xB0#8, fg2hPrefix := 0xA0#8, estopDirBit := false } ∧
    State.reset.pending = [] ∧ State.reset.resp = .nothing

/-- 70_reset_and_hazards.md R116: the reset input at any time gives the whole of R115, whatever was staged, active or
recorded. That the configuration is kept and the requests behind it still wait is the model's choice (assumption 11). -/
def Obligations.ResetInputGivesResetState : Prop :=
  ∀ (s : State) (rest : List Request), ∃ t, step { s with pending := .reset :: rest } = .next t ∧
    t.AtReset ∧ t.slots.length = s.slots.length ∧ t.params = s.params ∧ t.pending = rest

/-- 10_state.md R22: no operation observes a byte at or beyond `nbytes`: states that differ in such bytes only answer every
request alike, and still differ in such bytes only. So no claim can rest on what a byte nothing has written reads as,
which is the model's choice (assumption 3). -/
def Obligations.BytesBeyondTheContentAreNeverObserved : Prop :=
  ∀ s s' t : State, s.Agrees s' → step s = .next t → ∃ t', step s' = .next t' ∧ t'.resp = t.resp ∧ t.Agrees t'

/-- 10_state.md R30: in a state that meets the invariants the active Packet of every Slot holds 7 to 30 bytes. -/
def Obligations.ActivePacketIsNeverEmpty : Prop :=
  ∀ (s : State) (sl : Slot), s.Inv → sl ∈ s.slots →
    1 ≤ sl.active.ncmd.toNat ∧ 7 ≤ sl.active.nbytes.toNat ∧ sl.active.nbytes.toNat ≤ 30

/-! ### Faults (60_exceptions.md) -/

/-- 60_exceptions.md R106: an operation that faults writes no state but the fault register, which takes the fault's code if it
held NONE and else keeps its value; the operation reports its own code. -/
def Obligations.FaultWritesOnlyTheFaultRegister : Prop :=
  ∀ (i : Instr) (s : State), ∃ t, exec i s = .next t ∧
    (t.resp.faultCode ≠ 0#3 →
      t = { s with fault := t.fault, resp := t.resp } ∧
      (s.fault = .none → t.fault.code = t.resp.faultCode) ∧ (s.fault ≠ .none → t.fault = s.fault))

/-- 10_state.md R27: the fault register is written by a fault only, and only when it holds NONE; no operation clears it. -/
def Obligations.FaultRegisterKeepsTheFirstFault : Prop :=
  ∀ s t : State, s.pending.head? ≠ some .reset → step s = .next t →
    (s.fault ≠ .none → t.fault = s.fault) ∧ (s.fault = .none → t.faultOut = t.resp.faultCode)

/-- 60_exceptions.md R106: what the premise that no fault is recorded at the end of a run says: without a reset in the run, no
operation of it faulted. -/
def Obligations.FaultFreeEndMeansNoFault : Prop :=
  ∀ (k : Nat) (s t : State) (rs : List Response), observe k s = some (rs, t) → Request.reset ∉ s.pending.take k →
    t.faultFree → s.faultFree ∧ ∀ r ∈ rs, r.faultCode = 0#3

/-- 60_exceptions.md R107, R108 with R100 to R104: the status of every producer request, and the order of its causes. The slot,
where it exists, is `sl`. -/
def Obligations.ProducerStatusAndPriority : Prop :=
  ∀ (s : State) (w : BitVec 64) (rest : List Request),
    ∃ t, step { s with pending := .port (.preq w) :: rest } = .next t ∧ t.pending = rest ∧
      ∀ (op : BitVec 2) (n : Nat) (slot : Nat) (q : List Byte),
        op = w.extractLsb' 0 2 → n = (w.extractLsb' 2 3).toNat → slot = (w.extractLsb' 8 8).toNat →
        q = [w.extractLsb' 16 8, w.extractLsb' 24 8, w.extractLsb' 32 8, w.extractLsb' 40 8,
          w.extractLsb' 48 8, w.extractLsb' 56 8] →
        t.resp = .pstat
          (if op = 3#2 ∨ w.extractLsb' 5 3 ≠ 0#3 then 1#3
           else if op = 0#2 then 0#3
           else
             match s.slots[slot]? with
             | none => 2#3
             | some sl =>
               if op = 1#2 then 0#3
               else if n < 3 ∨ 6 < n then 3#3
               else if (q.take n).foldl (· ^^^ ·) 0#8 ≠ 0#8 then 4#3
               else if sl.staging.ncmd.toNat = 3 ∨ 30 < sl.staging.nbytes.toNat + (22 + 9 * n + 7) / 8 then 5#3
               else 0#3)

/-- 30_encoding.md R61, 60_exceptions.md R100: a reserved producer word raises F_RESERVED_OP and changes no other state. -/
def Obligations.ReservedProducerWordFaults : Prop :=
  ∀ (s : State) (w : BitVec 64) (rest : List Request), (w.extractLsb' 0 2 = 3#2 ∨ w.extractLsb' 5 3 ≠ 0#3) →
    step { s with pending := .port (.preq w) :: rest } =
      .next { s with pending := rest, fault := if s.fault = .none then .reservedOp else s.fault, resp := .pstat 1#3 }

/-! ### The producer's operations (44_refresh.md) -/

/-- 44_refresh.md R94: P_NOP, selected by op 00 and rsv 000, returns status 0 and leaves the state unchanged. -/
def Obligations.PNopChangesNothing : Prop :=
  (∀ w : BitVec 64, w.extractLsb' 5 3 = 0#3 → w.extractLsb' 0 2 = 0#2 → decode (.preq w) = .instr .pNop) ∧
  ∀ s : State, exec .pNop s = .next { s with resp := .pstat 0#3 }

/-- 44_refresh.md R95: STAGE_RESET, selected by op 01 and rsv 000, sets the staging buffer's counts to 0 and writes nothing
else; at a slot index of SLOTS or above it faults F_SLOT_INDEX. -/
def Obligations.StageResetEmptiesStaging : Prop :=
  (∀ w : BitVec 64, w.extractLsb' 5 3 = 0#3 → w.extractLsb' 0 2 = 1#2 →
    decode (.preq w) = .instr (.stageReset (w.extractLsb' 8 8))) ∧
  (∀ (s : State) (slot : BitVec 8), s.slots.length ≤ slot.toNat →
    exec (.stageReset slot) s =
      .next { s with fault := if s.fault = .none then .slotIndex else s.fault, resp := .pstat 2#3 }) ∧
  ∀ (s : State) (slot : BitVec 8) (sl : Slot), s.slots[slot.toNat]? = some sl →
    exec (.stageReset slot) s = .next { s with
      slots := s.slots.set slot.toNat
        (if sl.act = 0#1 then { sl with buf1 := { sl.buf1 with nbytes := 0#5, ncmd := 0#2 } }
         else { sl with buf0 := { sl.buf0 with nbytes := 0#5, ncmd := 0#2 } })
      resp := .pstat 0#3 }

/-- 44_refresh.md R96 with 42_packet.md R81: STAGE_APPEND of a well-formed command that fits writes the bytes of its frame at
byte offset `nbytes` of the staging buffer, counts them and the command, and changes no other byte, buffer or register.
The staging buffer's memory is in canonical form, which every step keeps. -/
def Obligations.StageAppendWritesTheFrame : Prop :=
  (∀ w : BitVec 64, w.extractLsb' 5 3 = 0#3 → w.extractLsb' 0 2 = 2#2 →
    decode (.preq w) = .instr (.stageAppend (w.extractLsb' 8 8) (w.extractLsb' 2 3)
      (w.extractLsb' 16 8) (w.extractLsb' 24 8) (w.extractLsb' 32 8) (w.extractLsb' 40 8)
      (w.extractLsb' 48 8) (w.extractLsb' 56 8))) ∧
  ∀ (s : State) (slot : BitVec 8) (n : BitVec 3) (b0 b1 b2 b3 b4 b5 : Byte) (sl : Slot) (c : List Byte),
    s.slots[slot.toNat]? = some sl → sl.staging.mem.wf = true →
    c = [b0, b1, b2, b3, b4, b5].take n.toNat → 3 ≤ n.toNat → n.toNat ≤ 6 →
    c.foldl (· ^^^ ·) 0#8 = 0#8 → sl.staging.ncmd.toNat < 3 →
    sl.staging.nbytes.toNat + (22 + 9 * n.toNat + 7) / 8 ≤ 30 →
    ∃ sl' : Slot,
      exec (.stageAppend slot n b0 b1 b2 b3 b4 b5) s =
        .next { s with slots := s.slots.set slot.toNat sl', resp := .pstat 0#3 } ∧
      sl'.act = sl.act ∧ sl'.active = sl.active ∧
      sl'.staging.nbytes.toNat = sl.staging.nbytes.toNat + (22 + 9 * n.toNat + 7) / 8 ∧
      sl'.staging.ncmd.toNat = sl.staging.ncmd.toNat + 1 ∧
      (∀ k, k < (22 + 9 * n.toNat + 7) / 8 →
        some (sl'.staging.mem.read (sl.staging.nbytes.toNat + k)) = (frame c)[k]?) ∧
      ∀ a, a < sl.staging.nbytes.toNat ∨ sl.staging.nbytes.toNat + (22 + 9 * n.toNat + 7) / 8 ≤ a →
        sl'.staging.mem.read a = sl.staging.mem.read a

/-- 60_exceptions.md R101 to R104: where STAGE_APPEND faults it changes nothing but the fault register; one clause for each
cause, each under the negation of the causes before it. -/
def Obligations.StageAppendFaultsWriteNothing : Prop :=
  ∀ (s : State) (slot : BitVec 8) (n : BitVec 3) (b0 b1 b2 b3 b4 b5 : Byte) (c : List Byte),
    c = [b0, b1, b2, b3, b4, b5].take n.toNat →
    (s.slots.length ≤ slot.toNat →
      exec (.stageAppend slot n b0 b1 b2 b3 b4 b5) s =
        .next { s with fault := if s.fault = .none then .slotIndex else s.fault, resp := .pstat 2#3 }) ∧
    ∀ sl : Slot, s.slots[slot.toNat]? = some sl →
      (n.toNat < 3 ∨ 6 < n.toNat →
        exec (.stageAppend slot n b0 b1 b2 b3 b4 b5) s =
          .next { s with fault := if s.fault = .none then .cmdLen else s.fault, resp := .pstat 3#3 }) ∧
      (3 ≤ n.toNat → n.toNat ≤ 6 → c.foldl (· ^^^ ·) 0#8 ≠ 0#8 →
        exec (.stageAppend slot n b0 b1 b2 b3 b4 b5) s =
          .next { s with fault := if s.fault = .none then .checksum else s.fault, resp := .pstat 4#3 }) ∧
      (3 ≤ n.toNat → n.toNat ≤ 6 → c.foldl (· ^^^ ·) 0#8 = 0#8 →
        (sl.staging.ncmd.toNat = 3 ∨ 30 < sl.staging.nbytes.toNat + (22 + 9 * n.toNat + 7) / 8) →
        exec (.stageAppend slot n b0 b1 b2 b3 b4 b5) s =
          .next { s with fault := if s.fault = .none then .capacity else s.fault, resp := .pstat 5#3 })

/-- 42_packet.md R81, corner cases: in a state that meets the invariants, a staging buffer that holds fewer than three commands
takes any well-formed command: the byte condition cannot fail. -/
def Obligations.ThreeCommandsAlwaysFit : Prop :=
  ∀ (s : State) (slot : BitVec 8) (sl : Slot) (n : BitVec 3) (b0 b1 b2 b3 b4 b5 : Byte),
    s.Inv → s.slots[slot.toNat]? = some sl → sl.staging.ncmd.toNat ≤ 2 →
    CmdWellFormed (cmdBytes n b0 b1 b2 b3 b4 b5) = true → n.toNat ≤ 6 →
    ∃ t, exec (.stageAppend slot n b0 b1 b2 b3 b4 b5) s = .next t ∧ t.resp = .pstat 0#3 ∧ t.fault = s.fault

/-- 30_encoding.md R65: `APPEND s, <cmd>` issues, for an accepted command, the word that STAGE_APPENDs exactly the command
the encoder returned, and for a rejected one nothing, reporting the rejection; `SET s, <cmds>` is `RESET s` and then
`APPEND s, <cmd>` for each command in order. The encoder that speaks is the machine's: the `ENCREQ` of a command decodes to
the encoder operation with the command's own operands, and a step that serves any `ENCREQ` answers the word of
`encodeRequest` of it (30_encoding.md R47; 41_encoder.md R67), served from `pending` (assumption 1) as a step that leaves
`resp` (assumption 6). -/
def Obligations.PseudoInstructionsIssueTheirRequests : Prop :=
  (decode (.encreq Cmd.idle.request) = .instr .encIdle ∧
    (∀ (a : BitVec 14) (v : BitVec 7) (d e : Bool),
      decode (.encreq (Cmd.throttle a v d e).request) = .instr (.encThrottle a v d e)) ∧
    (∀ (a : BitVec 14) (f : BitVec 5), decode (.encreq (Cmd.fg1 a f).request) = .instr (.encFg1 a f)) ∧
    (∀ (a : BitVec 14) (f : BitVec 4), decode (.encreq (Cmd.fg2l a f).request) = .instr (.encFg2l a (0#1 ++ f))) ∧
    ∀ (a : BitVec 14) (f : BitVec 4), decode (.encreq (Cmd.fg2h a f).request) = .instr (.encFg2h a (0#1 ++ f))) ∧
  (∀ (s : State) (w : BitVec 32) (rest : List Request),
    step { s with pending := .port (.encreq w) :: rest } =
      .next { s with pending := rest, resp := .encrsp (encodeRequest s.params w).word }) ∧
  (∀ (p : Config.Params) (slot : BitVec 8) (cs : List Cmd), ∃ w : BitVec 64,
    decode (.preq w) = .instr (.stageReset slot) ∧
    (Line.set slot cs).words p = .preq w :: cs.flatMap (fun c => (Line.append slot c).words p) ∧
    (Line.set slot cs).rejections p = cs.flatMap (fun c => (Line.append slot c).rejections p)) ∧
  ∀ (p : Config.Params) (slot : BitVec 8) (c : Cmd),
    (∀ q, encodeRequest p c.request = .ok q →
      ∃ (w : BitVec 64) (n : BitVec 3) (b0 b1 b2 b3 b4 b5 : Byte),
        appendCmd p slot c = .ok (.preq w) ∧ (Line.append slot c).words p = [.preq w] ∧
        (Line.append slot c).rejections p = [] ∧
        decode (.preq w) = .instr (.stageAppend slot n b0 b1 b2 b3 b4 b5) ∧
        n.toNat = q.length ∧ cmdBytes n b0 b1 b2 b3 b4 b5 = q) ∧
    (∀ e, encodeRequest p c.request = .err e →
      (Line.append slot c).words p = [] ∧ (Line.append slot c).rejections p = [e])

/-! ### Frames (30_encoding.md section 3; 42_packet.md R78, R79) -/

/-- 30_encoding.md R57: the bits of a frame by position: 22 preamble ones; for each byte a zero start bit and its eight bits, most
significant first; then ones up to the byte boundary. -/
def Obligations.FrameBitPositions : Prop :=
  ∀ q : List Byte, 3 ≤ q.length → q.length ≤ 6 →
    (frame q).length = (22 + 9 * q.length + 7) / 8 ∧
    (∀ i, i < 22 → (bitsOf (frame q))[i]? = some true) ∧
    (∀ (k : Nat) (b : Byte), q[k]? = some b →
      (bitsOf (frame q))[22 + 9 * k]? = some false ∧
      ∀ j, j < 8 → (bitsOf (frame q))[23 + 9 * k + j]? = some (b.getLsbD (7 - j))) ∧
    ∀ i, 22 + 9 * q.length ≤ i → i < 8 * ((22 + 9 * q.length + 7) / 8) → (bitsOf (frame q))[i]? = some true

/-- 30_encoding.md R57, the table of frame bytes, for 3 to 6 command bytes. -/
def Obligations.FrameBytesByLength : Prop :=
  ∀ c0 c1 c2 c3 c4 c5 : Byte,
    frame [c0, c1, c2] =
      [0xFF#8, 0xFF#8, 0b111111#6 ++ 0#1 ++ c0.extractLsb' 7 1, c0.extractLsb' 0 7 ++ 0#1, c1,
       0#1 ++ c2.extractLsb' 1 7, c2.extractLsb' 0 1 ++ 0b1111111#7] ∧
    frame [c0, c1, c2, c3] =
      [0xFF#8, 0xFF#8, 0b111111#6 ++ 0#1 ++ c0.extractLsb' 7 1, c0.extractLsb' 0 7 ++ 0#1, c1,
       0#1 ++ c2.extractLsb' 1 7, c2.extractLsb' 0 1 ++ 0#1 ++ c3.extractLsb' 2 6,
       c3.extractLsb' 0 2 ++ 0b111111#6] ∧
    frame [c0, c1, c2, c3, c4] =
      [0xFF#8, 0xFF#8, 0b111111#6 ++ 0#1 ++ c0.extractLsb' 7 1, c0.extractLsb' 0 7 ++ 0#1, c1,
       0#1 ++ c2.extractLsb' 1 7, c2.extractLsb' 0 1 ++ 0#1 ++ c3.extractLsb' 2 6,
       c3.extractLsb' 0 2 ++ 0#1 ++ c4.extractLsb' 3 5, c4.extractLsb' 0 3 ++ 0b11111#5] ∧
    frame [c0, c1, c2, c3, c4, c5] =
      [0xFF#8, 0xFF#8, 0b111111#6 ++ 0#1 ++ c0.extractLsb' 7 1, c0.extractLsb' 0 7 ++ 0#1, c1,
       0#1 ++ c2.extractLsb' 1 7, c2.extractLsb' 0 1 ++ 0#1 ++ c3.extractLsb' 2 6,
       c3.extractLsb' 0 2 ++ 0#1 ++ c4.extractLsb' 3 5, c4.extractLsb' 0 3 ++ 0#1 ++ c5.extractLsb' 4 4,
       c5.extractLsb' 0 4 ++ 0b1111#4]

/-- 30_encoding.md R58, R59: the wire format alone reads the frames of a list of well-formed commands back to those commands,
the first after 22 ones and every later one after 26 to 29. -/
def Obligations.DeframingFramesGivesTheCommands : Prop :=
  ∀ cmds : List (List Byte), (∀ c ∈ cmds, CmdWellFormed c = true) →
    (deframe (bitsOf (cmds.flatMap frame))).map (·.2) = cmds ∧
    (∀ f, (deframe (bitsOf (cmds.flatMap frame))).head? = some f → f.1 = 22) ∧
    ∀ f ∈ (deframe (bitsOf (cmds.flatMap frame))).tail, 26 ≤ f.1 ∧ f.1 ≤ 29

/-! ### The consumer's operation (44_refresh.md) -/

/-- 44_refresh.md R89 with 20_memory.md R35: NEXTBIT returns bit `7 - (i mod 8)` of byte `i div 8` of the active Packet at the cursor,
and moves the cursor: to the next bit, or after the last one to bit 0 of the next slot, whose pending flip it performs. -/
def Obligations.NextbitReturnsBitAndAdvances : Prop :=
  ∀ (s : State) (sl : Slot), s.slots.length ≤ 256 → s.slots[s.curSlot.toNat]? = some sl →
    (s.curBit.toNat + 1 < 8 * sl.active.nbytes.toNat →
      exec .nextbit s = .next { s with
        curBit := BitVec.ofNat 8 (s.curBit.toNat + 1)
        resp := .bit ((sl.active.mem.read (s.curBit.toNat / 8)).getLsbD (7 - s.curBit.toNat % 8)) }) ∧
    (s.curBit.toNat + 1 = 8 * sl.active.nbytes.toNat →
      ∀ sl2 : Slot, s.slots[(s.curSlot.toNat + 1) % s.slots.length]? = some sl2 →
        exec .nextbit s = .next { s with
          curSlot := BitVec.ofNat 8 ((s.curSlot.toNat + 1) % s.slots.length)
          curBit := 0#8
          slots := s.slots.set ((s.curSlot.toNat + 1) % s.slots.length)
            (if sl2.act = 0#1 then
              if sl2.buf1.nbytes = 0#5 then sl2
              else { sl2 with act := 1#1, buf0 := { sl2.buf0 with nbytes := 0#5, ncmd := 0#2 } }
             else
              if sl2.buf0.nbytes = 0#5 then sl2
              else { sl2 with act := 0#1, buf1 := { sl2.buf1 with nbytes := 0#5, ncmd := 0#2 } })
          resp := .bit ((sl.active.mem.read (s.curBit.toNat / 8)).getLsbD (7 - s.curBit.toNat % 8)) })

/-- 44_refresh.md R90: NEXTBIT always completes in one step with a bit, whatever the producer did and whatever fault is recorded. -/
def Obligations.NextbitAlwaysReturnsABit : Prop :=
  ∀ s : State, s.Inv → ∃ (t : State) (b : Bool), exec .nextbit s = .next t ∧ t.resp = .bit b ∧ t.fault = s.fault

/-- 20_memory.md R39: NEXTBIT writes no byte of any buffer. -/
def Obligations.NextbitWritesNoByte : Prop :=
  ∀ (s t : State) (k : Nat) (p : BitVec 1) (a : Nat), s.slots.length ≤ 256 → exec .nextbit s = .next t →
    t.byteAt k p a = s.byteAt k p a

/-- 20_memory.md R41: no producer request changes the role bit or the active Packet of any Slot, or the cursor. -/
def Obligations.ProducerNeverWritesActivePackets : Prop :=
  ∀ (s t : State) (w : BitVec 64) (rest : List Request) (k : Nat) (sl : Slot),
    step { s with pending := .port (.preq w) :: rest } = .next t → s.slots[k]? = some sl →
    t.curSlot = s.curSlot ∧ t.curBit = s.curBit ∧
      ∃ tl, t.slots[k]? = some tl ∧ tl.act = sl.act ∧ tl.active = sl.active

/-- 10_state.md R28: the consumer never reads a staging Packet: two states that differ in the staging Packets only give NEXTBIT
the same bit and the same cursor. -/
def Obligations.NextbitNeverReadsStaging : Prop :=
  ∀ (s s' t t' : State), s.slots.length ≤ 256 → s' = { s with slots := s'.slots } →
    s'.slots.length = s.slots.length →
    (∀ (k : Nat) (sl sl' : Slot), s.slots[k]? = some sl → s'.slots[k]? = some sl' →
      sl'.act = sl.act ∧ sl'.active = sl.active) →
    exec .nextbit s = .next t → exec .nextbit s' = .next t' →
    t'.resp = t.resp ∧ t'.curSlot = t.curSlot ∧ t'.curBit = t.curBit

/-- 70_reset_and_hazards.md R119, 43_slot.md R88: a step that is not a reset changes a Slot's active Packet only where it is a NEXTBIT
that reads the last bit of the Packet at the cursor and enters that Slot at bit 0. -/
def Obligations.ActiveChangesOnlyAtEntry : Prop :=
  ∀ (s t : State) (k : Nat) (sl tl : Slot), s.slots.length ≤ 256 → step s = .next t →
    s.pending.head? ≠ some .reset → s.slots[k]? = some sl → t.slots[k]? = some tl →
    (tl.act ≠ sl.act ∨ tl.active ≠ sl.active) →
    s.pending.head? = some (.port .nbReq) ∧ t.curSlot.toNat = k ∧ t.curBit = 0#8 ∧
      (∃ cl, s.slots[s.curSlot.toNat]? = some cl ∧ s.curBit.toNat + 1 = 8 * cl.active.nbytes.toNat) ∧
      tl.active = sl.staging ∧ sl.staging.nbytes ≠ 0#5

/-- 44_refresh.md R91: from bit 0 of a Packet, as many NEXTBITs as it has bits return the whole of its content, most significant bit
first, and leave the cursor at bit 0 of the next slot; no Slot but the entered one has changed. -/
def Obligations.TraversalReturnsTheWholePacket : Prop :=
  ∀ (s : State) (sl : Slot), s.Inv → s.slots[s.curSlot.toNat]? = some sl → s.curBit = 0#8 →
    ∃ t, nextbits (8 * sl.active.nbytes.toNat) s = some (bitsOf sl.active.content, t) ∧
      t.curSlot.toNat = (s.curSlot.toNat + 1) % s.slots.length ∧ t.curBit = 0#8 ∧ t.fault = s.fault ∧
      t.slots.length = s.slots.length ∧
      ∀ k, k ≠ (s.curSlot.toNat + 1) % s.slots.length → t.slots[k]? = s.slots[k]?

/-- 44_refresh.md R91 with 10_state.md R29: the bits of a traversal, read by the wire format alone, are exactly the `ncmd`
well-formed commands of the Packet. -/
def Obligations.TraversalDecodesToWholeCommands : Prop :=
  ∀ (s : State) (sl : Slot), s.Inv → s.slots[s.curSlot.toNat]? = some sl → s.curBit = 0#8 →
    ∃ (t : State) (bits : List Bool) (cmds : List (List Byte)),
      nextbits (8 * sl.active.nbytes.toNat) s = some (bits, t) ∧
      (deframe bits).map (·.2) = cmds ∧ cmds.length = sl.active.ncmd.toNat ∧ ∀ c ∈ cmds, CmdWellFormed c = true

/-- 70_reset_and_hazards.md R118: with no producer request after reset, the first `56 * SLOTS` NEXTBITs return SLOTS copies of the
idle frame and leave the block as it was, so this repeats for ever; whatever the unspecified bytes and the number of
Slots. -/
def Obligations.IdleStreamAfterReset : Prop :=
  ∀ s : State, s.AtReset → 1 ≤ s.slots.length → s.slots.length ≤ 256 →
    nextbits (56 * s.slots.length) s =
      some (bitsOf (List.replicate s.slots.length
        [0xFF#8, 0xFF#8, 0xFD#8, 0xFE#8, 0x00#8, 0x7F#8, 0xFF#8]).flatten, { s with resp := .bit true })

/-- 70_reset_and_hazards.md R122: staged content reaches the stream within one refresh cycle: after at most `SLOTS * 240` NEXTBITs the
cursor stands at bit 0 of its Slot with that content active. -/
def Obligations.StagedContentIsActiveWithinOneCycle : Prop :=
  ∀ (s : State) (k : Nat) (sl : Slot), s.Inv → s.slots[k]? = some sl → sl.staging.nbytes ≠ 0#5 →
    ∃ (m : Nat) (bits : List Bool) (t : State) (tl : Slot), m ≤ s.slots.length * 240 ∧
      nextbits m s = some (bits, t) ∧ t.curSlot.toNat = k ∧ t.curBit = 0#8 ∧
      t.slots[k]? = some tl ∧ tl.active = sl.staging

/-! ### The internal Packet operations (42_packet.md), run directly -/

/-- 42_packet.md R80: PKT_RESET sets the two counts of the buffer to 0; no byte is written. -/
def Obligations.PktResetEmptiesTheBuffer : Prop :=
  ∀ (s : State) (slot : BitVec 8) (sl : Slot), s.slots[slot.toNat]? = some sl →
    exec (.pktReset slot 0#1) s = .next { s with
      slots := s.slots.set slot.toNat { sl with buf0 := { sl.buf0 with nbytes := 0#5, ncmd := 0#2 } }
      resp := .done } ∧
    exec (.pktReset slot 1#1) s = .next { s with
      slots := s.slots.set slot.toNat { sl with buf1 := { sl.buf1 with nbytes := 0#5, ncmd := 0#2 } }
      resp := .done }

/-- 42_packet.md R81: PKT_APPEND of a well-formed command that fits: the frame's bytes at byte offset `nbytes`, both counts, and
nothing else; else the first of F_CMD_LEN, F_CHECKSUM, F_CAPACITY that applies, and nothing written but the fault register.
The buffer's memory is in canonical form, which every step keeps. -/
def Obligations.PktAppendWritesTheFrame : Prop :=
  ∀ (s : State) (slot : BitVec 8) (p : BitVec 1) (sl : Slot) (c : List Byte), s.slots[slot.toNat]? = some sl →
    (c.length < 3 ∨ 6 < c.length →
      exec (.pktAppend slot p c) s =
        .next { s with fault := if s.fault = .none then .cmdLen else s.fault, resp := .raised .cmdLen }) ∧
    (3 ≤ c.length → c.length ≤ 6 → c.foldl (· ^^^ ·) 0#8 ≠ 0#8 →
      exec (.pktAppend slot p c) s =
        .next { s with fault := if s.fault = .none then .checksum else s.fault, resp := .raised .checksum }) ∧
    (3 ≤ c.length → c.length ≤ 6 → c.foldl (· ^^^ ·) 0#8 = 0#8 →
      ((sl.buf p).ncmd.toNat = 3 ∨ 30 < (sl.buf p).nbytes.toNat + (22 + 9 * c.length + 7) / 8) →
      exec (.pktAppend slot p c) s =
        .next { s with fault := if s.fault = .none then .capacity else s.fault, resp := .raised .capacity }) ∧
    (3 ≤ c.length → c.length ≤ 6 → c.foldl (· ^^^ ·) 0#8 = 0#8 → (sl.buf p).mem.wf = true →
      (sl.buf p).ncmd.toNat < 3 → (sl.buf p).nbytes.toNat + (22 + 9 * c.length + 7) / 8 ≤ 30 →
      ∃ sl' : Slot,
        exec (.pktAppend slot p c) s = .next { s with slots := s.slots.set slot.toNat sl', resp := .done } ∧
        sl'.act = sl.act ∧ (∀ q, q ≠ p → sl'.buf q = sl.buf q) ∧
        (sl'.buf p).nbytes.toNat = (sl.buf p).nbytes.toNat + (22 + 9 * c.length + 7) / 8 ∧
        (sl'.buf p).ncmd.toNat = (sl.buf p).ncmd.toNat + 1 ∧
        (∀ k, k < (22 + 9 * c.length + 7) / 8 →
          some ((sl'.buf p).mem.read ((sl.buf p).nbytes.toNat + k)) = (frame c)[k]?) ∧
        ∀ a, a < (sl.buf p).nbytes.toNat ∨ (sl.buf p).nbytes.toNat + (22 + 9 * c.length + 7) / 8 ≤ a →
          (sl'.buf p).mem.read a = (sl.buf p).mem.read a)

/-- 42_packet.md R82 with 20_memory.md R35: PKT_GETBIT returns bit `7 - (i mod 8)` of byte `i div 8`, below the Packet's length; at or
beyond it, it faults F_GETBIT_RANGE. In a state that meets the invariants the last bit of a Packet that is not empty, bit
`lenbits - 1`, is 1: its last padding bit. -/
def Obligations.PktGetbitReadsTheBit : Prop :=
  ∀ (s : State) (slot i : BitVec 8) (p : BitVec 1) (sl : Slot), s.slots[slot.toNat]? = some sl →
    (s.Inv → (sl.buf p).nbytes ≠ 0#5 → i.toNat + 1 = 8 * (sl.buf p).nbytes.toNat →
      exec (.pktGetbit slot p i) s = .next { s with resp := .bit true }) ∧
    (i.toNat < 8 * (sl.buf p).nbytes.toNat →
      exec (.pktGetbit slot p i) s =
        .next { s with resp := .bit (((sl.buf p).mem.read (i.toNat / 8)).getLsbD (7 - i.toNat % 8)) }) ∧
    (8 * (sl.buf p).nbytes.toNat ≤ i.toNat →
      exec (.pktGetbit slot p i) s =
        .next { s with fault := if s.fault = .none then .getbitRange else s.fault, resp := .raised .getbitRange })

/-- 42_packet.md R83: PKT_LENGTH returns `8 * nbytes`, at most 240 in a state that meets the invariants. -/
def Obligations.PktLengthIsEightTimesTheByteCount : Prop :=
  ∀ (s : State) (slot : BitVec 8) (p : BitVec 1) (sl : Slot), s.slots[slot.toNat]? = some sl →
    ∃ n : BitVec 8, exec (.pktLength slot p) s = .next { s with resp := .length n } ∧
      n.toNat = 8 * (sl.buf p).nbytes.toNat ∧ (s.Inv → n.toNat ≤ 240)

/-! ### The internal Slot operations (43_slot.md), run directly -/

/-- 43_slot.md R84: SLOT_STAGE returns the index that is not the active one. -/
def Obligations.SlotStageReturnsTheOtherIndex : Prop :=
  ∀ (s : State) (slot : BitVec 8) (sl : Slot), s.slots[slot.toNat]? = some sl →
    exec (.slotStage slot) s = .next { s with resp := .index (if sl.act = 0#1 then 1#1 else 0#1) }

/-- 43_slot.md R85: SLOT_FLIP with an empty staging Packet changes nothing; else it swaps the roles and empties the formerly active
Packet, whose bytes stay. -/
def Obligations.SlotFlipSwapsTheRoles : Prop :=
  ∀ (s : State) (slot : BitVec 8) (sl : Slot), s.slots[slot.toNat]? = some sl →
    exec (.slotFlip slot) s = .next { s with
      slots := s.slots.set slot.toNat
        (if sl.act = 0#1 then
          if sl.buf1.nbytes = 0#5 then sl
          else { sl with act := 1#1, buf0 := { sl.buf0 with nbytes := 0#5, ncmd := 0#2 } }
         else
          if sl.buf0.nbytes = 0#5 then sl
          else { sl with act := 0#1, buf1 := { sl.buf1 with nbytes := 0#5, ncmd := 0#2 } })
      resp := .done }

/-- 43_slot.md R86: SLOT_GETBIT reads the active Packet only. -/
def Obligations.SlotGetbitReadsTheActivePacket : Prop :=
  ∀ (s : State) (slot i : BitVec 8) (sl : Slot) (b : Buffer), s.slots[slot.toNat]? = some sl →
    b = (if sl.act = 0#1 then sl.buf0 else sl.buf1) →
    (i.toNat < 8 * b.nbytes.toNat →
      exec (.slotGetbit slot i) s =
        .next { s with resp := .bit ((b.mem.read (i.toNat / 8)).getLsbD (7 - i.toNat % 8)) }) ∧
    (8 * b.nbytes.toNat ≤ i.toNat →
      exec (.slotGetbit slot i) s =
        .next { s with fault := if s.fault = .none then .getbitRange else s.fault, resp := .raised .getbitRange })

/-- 43_slot.md R87: SLOT_LENGTH returns the active Packet's bit length, 56 to 240 in a state that meets the invariants. -/
def Obligations.SlotLengthIsTheActiveLength : Prop :=
  ∀ (s : State) (slot : BitVec 8) (sl : Slot), s.slots[slot.toNat]? = some sl →
    ∃ n : BitVec 8, exec (.slotLength slot) s = .next { s with resp := .length n } ∧
      n.toNat = 8 * (if sl.act = 0#1 then sl.buf0.nbytes.toNat else sl.buf1.nbytes.toNat) ∧
      (s.Inv → 56 ≤ n.toNat ∧ n.toNat ≤ 240)

/-- 20_memory.md R33: an internal operation run directly at a slot index that does not exist faults F_SLOT_INDEX and writes nothing
else. That it answers so is the model's reading of R33 (assumption 8). -/
def Obligations.InternalOperationAtAbsentSlotFaults : Prop :=
  ∀ (s : State) (slot : BitVec 8) (i : Instr), s.slots.length ≤ slot.toNat →
    (i ∈ [Instr.slotStage slot, .slotFlip slot, .slotLength slot] ∨ (∃ p, i = .pktReset slot p) ∨
      (∃ p c, i = .pktAppend slot p c) ∨ (∃ p k, i = .pktGetbit slot p k) ∨ (∃ p, i = .pktLength slot p) ∨
      ∃ k, i = .slotGetbit slot k) →
    exec i s =
      .next { s with fault := if s.fault = .none then .slotIndex else s.fault, resp := .raised .slotIndex }
end

