-- ==== Sys2Proof/Laws/Frame.lean ====
section
/-! SUPPORT. Laws/Frame: the checksum, packing of bits into bytes, and the length and bits of a frame. -/

namespace Sys2Proof.Machine

/-! ### Checksum -/

@[simp] theorem chk_nil : chk [] = 0#8 := rfl
@[simp] theorem chk_cons (b : Byte) (q : List Byte) : chk (b :: q) = b ^^^ chk q := rfl

theorem chk_append (q r : List Byte) : chk (q ++ r) = chk q ^^^ chk r := by
  induction q with
  | nil => simp
  | cons b q ih => simp [ih, BitVec.xor_assoc]

/-- A finished command XORs to zero (41_encoder.md R69). -/
theorem chk_fin (q : List Byte) : chk (fin q) = 0#8 := by
  simp [fin, chk_append]

/-- The XOR taken from the left is the same XOR. -/
theorem foldl_xor (q : List Byte) (a : Byte) : q.foldl (· ^^^ ·) a = a ^^^ chk q := by
  induction q generalizing a with
  | nil => simp
  | cons b q ih => simp [ih, BitVec.xor_assoc]

/-! ### Bits of bytes -/

@[simp] theorem bits8_length (b : Byte) : (bits8 b).length = 8 := rfl

/-- The byte of its own bits is the byte. -/
theorem byteOfBits_bits (b : Byte) :
    byteOfBits (bitMsbFirst b 0) (bitMsbFirst b 1) (bitMsbFirst b 2) (bitMsbFirst b 3)
      (bitMsbFirst b 4) (bitMsbFirst b 5) (bitMsbFirst b 6) (bitMsbFirst b 7) = b := by
  revert b; decide

theorem bits8_byteOfBits (b7 b6 b5 b4 b3 b2 b1 b0 : Bool) :
    bits8 (byteOfBits b7 b6 b5 b4 b3 b2 b1 b0) = [b7, b6, b5, b4, b3, b2, b1, b0] := by
  revert b7 b6 b5 b4 b3 b2 b1 b0; decide

@[simp] theorem bitsOf_nil : bitsOf [] = [] := rfl
@[simp] theorem bitsOf_cons (b : Byte) (q : List Byte) : bitsOf (b :: q) = bits8 b ++ bitsOf q := rfl
@[simp] theorem bitsOf_append (q r : List Byte) : bitsOf (q ++ r) = bitsOf q ++ bitsOf r := by
  simp [bitsOf]
@[simp] theorem bitsOf_length (q : List Byte) : (bitsOf q).length = 8 * q.length := by
  induction q with
  | nil => rfl
  | cons b q ih => simp [ih]; omega

/-- Packing whole bytes and reading their bits gives the bits back. -/
theorem bitsOf_pack (n : Nat) (L : List Bool) (h : L.length = 8 * n) : bitsOf (pack L) = L ∧ (pack L).length = n := by
  induction n generalizing L with
  | zero =>
    obtain rfl : L = [] := List.length_eq_zero_iff.1 (by omega)
    exact ⟨rfl, rfl⟩
  | succ n ih =>
    match L, h with
    | b7 :: b6 :: b5 :: b4 :: b3 :: b2 :: b1 :: b0 :: rest, h =>
      have hr := ih rest (by simp only [List.length_cons] at h; omega)
      exact ⟨by simp [pack, bits8_byteOfBits, hr.1], by simp [pack, hr.2]⟩

/-! ### Frames -/

theorem frameBody_length (c : List Byte) : (frameBody c).length = 22 + 9 * c.length := by
  have : (c.flatMap (fun b => false :: bits8 b)).length = 9 * c.length := by
    induction c with
    | nil => rfl
    | cons b c ih => simp [ih]; omega
  simp only [frameBody, ones, List.length_append, List.length_replicate, this, Config.preambleBits]

theorem frameLen_bound (n : Nat) : 22 + 9 * n ≤ 8 * frameLen n := by
  simp only [frameLen, Config.preambleBits]; omega

theorem frameBits_length (c : List Byte) : (frameBits c).length = 8 * frameLen c.length := by
  have := frameLen_bound c.length
  simp [frameBits, ones, frameBody_length]
  omega

/-- A frame is `L(N)` bytes (42_packet.md R78). -/
@[simp] theorem frame_length (c : List Byte) : (frame c).length = frameLen c.length :=
  (bitsOf_pack _ _ (frameBits_length c)).2

/-- The bits of a frame's bytes are the frame's bits (42_packet.md R79). -/
theorem bitsOf_frame (c : List Byte) : bitsOf (frame c) = frameBits c :=
  (bitsOf_pack _ _ (frameBits_length c)).1

/-- A well-formed command, taken apart (42_packet.md R77). -/
theorem cmdWellFormed_iff (c : List Byte) : CmdWellFormed c = true ↔ 3 ≤ c.length ∧ c.length ≤ 6 ∧ chk c = 0#8 := by
  simp [CmdWellFormed, and_assoc]

/-- The frame of a well-formed command is 7 to 10 bytes (42_packet.md R78). -/
theorem frameLen_range {n : Nat} (h3 : 3 ≤ n) (h6 : n ≤ 6) : 7 ≤ frameLen n ∧ frameLen n ≤ 10 := by
  simp only [frameLen, Config.preambleBits]; omega

theorem cmdLenOutOfRange_iff (n : Nat) : cmdLenOutOfRange n = true ↔ n < 3 ∨ 6 < n := by
  simp [cmdLenOutOfRange]

/-- The last bit of a frame is a one: its padding holds at least four (30_encoding.md R57). -/
theorem frame_last_bit {c : List Byte} (h : CmdWellFormed c = true) :
    (bitsOf (frame c))[8 * frameLen c.length - 1]? = some true := by
  rw [bitsOf_frame]
  have := (cmdWellFormed_iff c).1 h
  have h2 := frameBody_length c
  have h3 : 22 + 9 * c.length < 8 * frameLen c.length := by simp only [frameLen, Config.preambleBits]; omega
  simp only [frameBits, ones]
  rw [List.getElem?_append_right (by omega), List.getElem?_replicate, if_pos (by omega)]

end Sys2Proof.Machine
end

