-- ==== Sys2Proof/Laws/Encoding.lean ====
section
/-! SUPPORT. Laws/Encoding: the fields read back from a word made of fields (30_encoding.md R47, R48, R49), and the encoder's
response words. -/

namespace Sys2Proof

/-- A field inside the less significant part of a concatenation. -/
theorem field_low {v w start len : Nat} {hi : BitVec v} {lo : BitVec w} (h : start + len ≤ w) :
    (hi ++ lo).extractLsb' start len = lo.extractLsb' start len :=
  BitVec.extractLsb'_append_eq_of_add_le h

/-- A field inside the more significant part of a concatenation. -/
theorem field_high {v w start len : Nat} {hi : BitVec v} {lo : BitVec w} (h : w ≤ start) :
    (hi ++ lo).extractLsb' start len = hi.extractLsb' (start - w) len :=
  BitVec.extractLsb'_append_eq_of_le h

/-- A field that is the whole value. -/
theorem field_self {w : Nat} (x : BitVec w) : x.extractLsb' 0 w = x := by simp

section encreq
variable (f : BitVec 5) (e d : Bool) (s : BitVec 7) (a : BitVec 14) (k : BitVec 3)

@[simp] theorem encKind_word : encKind (encReqWord f e d s a k) = k := by
  simp (disch := decide) only [encKind, encReqWord, field_low, field_self]
@[simp] theorem encAddr_word : encAddr (encReqWord f e d s a k) = a := by
  simp (disch := decide) only [encAddr, encReqWord, field_low, field_high]
  exact field_self _
@[simp] theorem encSpeed_word : encSpeed (encReqWord f e d s a k) = s := by
  simp (disch := decide) only [encSpeed, encReqWord, field_low, field_high]
  exact field_self _
@[simp] theorem encFbits_word : encFbits (encReqWord f e d s a k) = f := by
  simp (disch := decide) only [encFbits, encReqWord, field_low, field_high]
  exact field_self _
@[simp] theorem encFwd_word : encFwd (encReqWord f e d s a k) = d := by
  simp only [encFwd, encReqWord, BitVec.getLsbD_append]
  cases d <;> rfl
@[simp] theorem encEstop_word : encEstop (encReqWord f e d s a k) = e := by
  simp only [encEstop, encReqWord, BitVec.getLsbD_append]
  cases e <;> rfl
@[simp] theorem encRsv_word : encRsv (encReqWord f e d s a k) = false := by
  simp only [encRsv, encReqWord, BitVec.getLsbD_append]
  rfl
end encreq

section preq
variable (b5 b4 b3 b2 b1 b0 : Byte) (slot : BitVec 8) (n : BitVec 3) (op : BitVec 2)

@[simp] theorem preqOp_word : preqOp (preqWord b5 b4 b3 b2 b1 b0 slot n op) = op := by
  simp (disch := decide) only [preqOp, preqWord, field_low, field_self]
@[simp] theorem preqN_word : preqN (preqWord b5 b4 b3 b2 b1 b0 slot n op) = n := by
  simp (disch := decide) only [preqN, preqWord, field_low, field_high]
  exact field_self _
@[simp] theorem preqRsv_word : preqRsv (preqWord b5 b4 b3 b2 b1 b0 slot n op) = 0#3 := by
  simp (disch := decide) only [preqRsv, preqWord, field_low, field_high]
  exact field_self _
@[simp] theorem preqSlot_word : preqSlot (preqWord b5 b4 b3 b2 b1 b0 slot n op) = slot := by
  simp (disch := decide) only [preqSlot, preqWord, field_low, field_high]
  exact field_self _
@[simp] theorem preqByte0_word : preqByte (preqWord b5 b4 b3 b2 b1 b0 slot n op) 0 = b0 := by
  simp (disch := decide) only [preqByte, preqWord, field_low, field_high]
  exact field_self _
@[simp] theorem preqByte1_word : preqByte (preqWord b5 b4 b3 b2 b1 b0 slot n op) 1 = b1 := by
  simp (disch := decide) only [preqByte, preqWord, field_low, field_high]
  exact field_self _
@[simp] theorem preqByte2_word : preqByte (preqWord b5 b4 b3 b2 b1 b0 slot n op) 2 = b2 := by
  simp (disch := decide) only [preqByte, preqWord, field_low, field_high]
  exact field_self _
@[simp] theorem preqByte3_word : preqByte (preqWord b5 b4 b3 b2 b1 b0 slot n op) 3 = b3 := by
  simp (disch := decide) only [preqByte, preqWord, field_low, field_high]
  exact field_self _
@[simp] theorem preqByte4_word : preqByte (preqWord b5 b4 b3 b2 b1 b0 slot n op) 4 = b4 := by
  simp (disch := decide) only [preqByte, preqWord, field_low, field_high]
  exact field_self _
@[simp] theorem preqByte5_word : preqByte (preqWord b5 b4 b3 b2 b1 b0 slot n op) 5 = b5 := by
  simp (disch := decide) only [preqByte, preqWord, field_high]
  exact field_self _
end preq

/-- An encoder request word without the reserved bit is its fields (30_encoding.md R47). -/
theorem encReqWord_fields {w : BitVec 32} (h : encRsv w = false) :
    encReqWord (encFbits w) (encEstop w) (encFwd w) (encSpeed w) (encAddr w) (encKind w) = w := by
  apply BitVec.eq_of_getLsbD_eq
  intro i hi
  simp only [encRsv] at h
  simp only [encReqWord, encFbits, encEstop, encFwd, encSpeed, encAddr, encKind, BitVec.getLsbD_append,
    BitVec.getLsbD_extractLsb', BitVec.getLsbD_ofBool, BitVec.getLsbD_zero]
  interval_cases i <;> first | rfl | (simp only [h]; rfl)

/-- A producer request word whose reserved bits are 0 is its fields (30_encoding.md R49). -/
theorem preqWord_fields {w : BitVec 64} (h : preqRsv w = 0#3) :
    preqWord (preqByte w 5) (preqByte w 4) (preqByte w 3) (preqByte w 2) (preqByte w 1) (preqByte w 0)
      (preqSlot w) (preqN w) (preqOp w) = w := by
  unfold preqWord
  rw [← h]
  apply BitVec.eq_of_getLsbD_eq
  intro i hi
  simp only [preqByte, preqSlot, preqN, preqOp, preqRsv, BitVec.getLsbD_append, BitVec.getLsbD_extractLsb']
  interval_cases i <;> rfl

end Sys2Proof

namespace Sys2Proof.Machine

section encrsp
variable (b5 b4 b3 b2 b1 b0 : Byte) (n st : BitVec 3)

@[simp] theorem rspStatus_word : rspStatus (encRspWord b5 b4 b3 b2 b1 b0 n st) = st := by
  simp (disch := decide) only [rspStatus, encRspWord, field_low, field_self]
@[simp] theorem rspN_word : rspN (encRspWord b5 b4 b3 b2 b1 b0 n st) = n := by
  simp (disch := decide) only [rspN, encRspWord, field_low, field_high]
  exact field_self _
theorem rspZeros_word : (encRspWord b5 b4 b3 b2 b1 b0 n st).extractLsb' 6 2 = 0#2 := by
  simp (disch := decide) only [encRspWord, field_low, field_high]
  exact field_self _
@[simp] theorem rspByte0_word : rspByte (encRspWord b5 b4 b3 b2 b1 b0 n st) 0 = b0 := by
  simp (disch := decide) only [rspByte, encRspWord, field_low, field_high]
  exact field_self _
@[simp] theorem rspByte1_word : rspByte (encRspWord b5 b4 b3 b2 b1 b0 n st) 1 = b1 := by
  simp (disch := decide) only [rspByte, encRspWord, field_low, field_high]
  exact field_self _
@[simp] theorem rspByte2_word : rspByte (encRspWord b5 b4 b3 b2 b1 b0 n st) 2 = b2 := by
  simp (disch := decide) only [rspByte, encRspWord, field_low, field_high]
  exact field_self _
@[simp] theorem rspByte3_word : rspByte (encRspWord b5 b4 b3 b2 b1 b0 n st) 3 = b3 := by
  simp (disch := decide) only [rspByte, encRspWord, field_low, field_high]
  exact field_self _
@[simp] theorem rspByte4_word : rspByte (encRspWord b5 b4 b3 b2 b1 b0 n st) 4 = b4 := by
  simp (disch := decide) only [rspByte, encRspWord, field_low, field_high]
  exact field_self _
@[simp] theorem rspByte5_word : rspByte (encRspWord b5 b4 b3 b2 b1 b0 n st) 5 = b5 := by
  simp (disch := decide) only [rspByte, encRspWord, field_high]
  exact field_self _
end encrsp

/-- The response of an accepted request carries its command (30_encoding.md R48; 41_encoder.md R67). -/
theorem EncResult.word_carries {q : List Byte} (h : q.length ≤ 6) : RspCarries (EncResult.ok q).word q where
  status := by simp only [EncResult.word, rspStatus_word]
  n := by
    simp only [EncResult.word, rspN_word, BitVec.toNat_ofNat]
    omega
  zeros := by simp only [EncResult.word, rspZeros_word]
  bytes := by
    intro k hk
    simp only [EncResult.word]
    match k, hk with
    | 0, _ => simp only [rspByte0_word, byteAt]
    | 1, _ => simp only [rspByte1_word, byteAt]
    | 2, _ => simp only [rspByte2_word, byteAt]
    | 3, _ => simp only [rspByte3_word, byteAt]
    | 4, _ => simp only [rspByte4_word, byteAt]
    | 5, _ => simp only [rspByte5_word, byteAt]

/-- The response of a rejected request is its status alone (30_encoding.md R48). -/
theorem EncResult.word_err (e : EncError) : (EncResult.err e).word = e.code.setWidth 56 := by
  cases e <;> decide

/-- The command read back from an accepted response (30_encoding.md R48). -/
theorem RspCarries.cmd {w : BitVec 56} {q : List Byte} (h : RspCarries w q) (hl : q.length ≤ 6) : rspCmd w = q := by
  refine List.ext_getElem (by simp [rspCmd, h.n]) fun k h1 h2 => ?_
  have := h.bytes k (by omega)
  simp [rspCmd, this, h2]

/-! ### Addresses and speed bytes in numbers -/

theorem addrOutOfRange_iff (a : BitVec 14) : addrOutOfRange a = true ↔ a.toNat < 1 ∨ 9999 < a.toNat := by
  simp [addrOutOfRange]

/-- The address field in numbers (30_encoding.md R51; 41_encoder.md R68). -/
theorem addrBytes_eq_wireAddr {a : BitVec 14} (h : a.toNat ≤ 9999) : addrBytes a = wireAddr a.toNat := by
  have low : a.setWidth 8 = BitVec.ofNat 8 a.toNat := by
    apply BitVec.eq_of_toNat_eq; simp
  have low' : BitVec.ofNat 8 a.toNat = BitVec.ofNat 8 (a.toNat % 256) := by
    apply BitVec.eq_of_toNat_eq; simp
  have high : (a >>> 8).setWidth 8 ||| 0xC0#8 = BitVec.ofNat 8 (192 + a.toNat / 256) := by
    have hs : (a >>> 8).setWidth 8 = BitVec.ofNat 8 (a.toNat / 256) := by
      apply BitVec.eq_of_toNat_eq; simp [Nat.shiftRight_eq_div_pow]
    have hk : a.toNat / 256 < 40 := by omega
    rw [hs]
    generalize a.toNat / 256 = k at hk
    revert k; decide
  unfold addrBytes wireAddr
  split
  · rw [low]
  · rw [high, low, low']

theorem wireAddr_length (a : Nat) : (wireAddr a).length = 1 ∨ (wireAddr a).length = 2 := by
  unfold wireAddr; split <;> simp

/-- A finished command is its body and the XOR of the body (41_encoder.md R69). -/
theorem fin_eq (q : List Byte) : fin q = q ++ [q.foldl (· ^^^ ·) 0#8] := by
  rw [foldl_xor]; simp [fin]

@[simp] theorem fin_length (q : List Byte) : (fin q).length = q.length + 1 := by simp [fin]

/-- The speed byte in numbers (41_encoder.md R72, R70). -/
theorem speedByte_eq (p : Config.Params) {speed : BitVec 7} (fwd estop : Bool) (h : speed.toNat ≤ 126) :
    speedByte p speed fwd estop =
      BitVec.ofNat 8
        ((if fwd = true ∧ (estop = true → p.estopDirBit = true) then 128 else 0) +
         (if estop = true then 1 else if speed.toNat = 0 then 0 else speed.toNat + 1)) := by
  simp only [speedByte]
  generalize p.estopDirBit = e
  revert e fwd estop speed
  decide

end Sys2Proof.Machine
end

