-- ==== Sys2Proof/Laws/Memory.lean ====
section
/-! SUPPORT. Laws/Memory: a byte written is the byte read, every other byte stays, and every memory operation keeps the
canonical form. -/

namespace Sys2Proof.Machine

namespace Memory

theorem wfFrom_cons {hi lo k : Nat} {v : Byte} {rest : Memory} :
    wfFrom hi lo ((k, v) :: rest) = true ↔ lo ≤ k ∧ k < hi ∧ v ≠ unlisted ∧ wfFrom hi (k + 1) rest = true := by
  simp [wfFrom, and_assoc]

/-- A canonical memory is canonical from every lower bound. -/
theorem wfFrom_mono {hi lo lo' : Nat} {m : Memory} (h : wfFrom hi lo m = true) (hl : lo' ≤ lo) :
    wfFrom hi lo' m = true := by
  cases m with
  | nil => rfl
  | cons c rest =>
    obtain ⟨k, v⟩ := c
    rw [wfFrom_cons] at h ⊢
    exact ⟨hl.trans h.1, h.2⟩

/-- Below its least address a canonical memory lists nothing. -/
theorem read_of_lt {hi lo a : Nat} {m : Memory} (h : wfFrom hi lo m = true) (ha : a < lo) : m.read a = unlisted := by
  induction m generalizing lo with
  | nil => rfl
  | cons c rest ih =>
    obtain ⟨k, v⟩ := c
    rw [wfFrom_cons] at h
    simp only [read]
    rw [if_neg (by omega)]
    exact ih h.2.2.2 (by omega)

theorem read_cons_same {a : Nat} {v : Byte} {m : Memory} (h : m.read a = unlisted) : (cons a v m).read a = v := by
  unfold cons
  split
  · simp_all
  · simp [read]

theorem read_cons_other {a b : Nat} {v : Byte} {m : Memory} (h : b ≠ a) : (cons a v m).read b = m.read b := by
  unfold cons
  split
  · rfl
  · simp [read, Ne.symm h]

/-- Read after write, at the address written. -/
theorem read_write_same {hi lo a : Nat} {v : Byte} {m : Memory} (h : wfFrom hi lo m = true) :
    (m.write a v).read a = v := by
  induction m generalizing lo with
  | nil => exact read_cons_same rfl
  | cons c rest ih =>
    obtain ⟨k, u⟩ := c
    have h' := h
    rw [wfFrom_cons] at h
    simp only [write]
    split
    · rename_i hlt
      exact read_cons_same (read_of_lt (wfFrom_cons.2 ⟨Nat.le_refl k, h.2⟩) hlt)
    · split
      · rename_i heq
        exact read_cons_same (read_of_lt h.2.2.2 (by omega))
      · rename_i hne
        simp only [read]
        rw [if_neg (by omega)]
        exact ih h.2.2.2

/-- Read after write, at every other address. -/
theorem read_write_other {a b : Nat} {v : Byte} {m : Memory} (hb : b ≠ a) : (m.write a v).read b = m.read b := by
  induction m with
  | nil => exact read_cons_other hb
  | cons c rest ih =>
    obtain ⟨k, u⟩ := c
    simp only [write]
    split
    · exact read_cons_other hb
    · split
      · rename_i heq
        rw [read_cons_other hb]
        simp only [read]
        rw [if_neg (by omega)]
      · simp only [read, ih]

theorem wfFrom_memCons {hi lo a : Nat} {v : Byte} {m : Memory} (hlo : lo ≤ a) (hhi : a < hi)
    (h : wfFrom hi (a + 1) m = true) : wfFrom hi lo (cons a v m) = true := by
  unfold cons
  split
  · exact wfFrom_mono h (by omega)
  · exact wfFrom_cons.2 ⟨hlo, hhi, by assumption, h⟩

/-- A write below the end of the store keeps the canonical form. -/
theorem wfFrom_write {hi lo a : Nat} {v : Byte} {m : Memory} (h : wfFrom hi lo m = true) (hlo : lo ≤ a) (hhi : a < hi) :
    wfFrom hi lo (m.write a v) = true := by
  induction m generalizing lo with
  | nil => exact wfFrom_memCons hlo hhi rfl
  | cons c rest ih =>
    obtain ⟨k, u⟩ := c
    rw [wfFrom_cons] at h
    simp only [write]
    split
    · exact wfFrom_memCons hlo hhi (wfFrom_cons.2 ⟨by omega, h.2⟩)
    · split
      · rename_i heq
        subst heq
        exact wfFrom_memCons hlo hhi h.2.2.2
      · exact wfFrom_cons.2 ⟨h.1, h.2.1, h.2.2.1, ih h.2.2.2 (by omega)⟩

/-- Writing one byte inside the store keeps the canonical form. -/
theorem wf_write {m : Memory} {a : Nat} {v : Byte} (h : m.wf = true) (ha : a < Config.capBytes) : (m.write a v).wf = true :=
  wfFrom_write h (Nat.zero_le a) ha

/-- Writing bytes inside the store keeps the canonical form. -/
theorem wf_writeBytes {m : Memory} {a : Nat} {vs : List Byte} (h : m.wf = true) (hend : a + vs.length ≤ Config.capBytes) :
    (m.writeBytes a vs).wf = true := by
  induction vs generalizing m a with
  | nil => exact h
  | cons v vs ih =>
    simp only [List.length_cons] at hend
    exact ih (wfFrom_write h (Nat.zero_le a) (by omega)) (by omega)

/-- Bytes outside those written stay. -/
theorem read_writeBytes_outside {m : Memory} {a b : Nat} {vs : List Byte} (hb : b < a ∨ a + vs.length ≤ b) :
    (m.writeBytes a vs).read b = m.read b := by
  induction vs generalizing m a with
  | nil => rfl
  | cons v vs ih =>
    simp only [List.length_cons] at hb
    rw [writeBytes, ih (by omega), read_write_other (by omega)]

/-- The bytes written read back. -/
theorem read_writeBytes_inside {m : Memory} {a k : Nat} {vs : List Byte} (h : m.wf = true)
    (hend : a + vs.length ≤ Config.capBytes) (hk : k < vs.length) :
    (m.writeBytes a vs).read (a + k) = vs[k] := by
  induction vs generalizing m a k with
  | nil => simp at hk
  | cons v vs ih =>
    simp only [List.length_cons] at hend hk
    cases k with
    | zero =>
      change (writeBytes (m.write a v) (a + 1) vs).read a = v
      rw [read_writeBytes_outside (by omega), read_write_same h]
    | succ k =>
      have := ih (m := m.write a v) (a := a + 1) (k := k) (wfFrom_write h (Nat.zero_le a) (by omega)) (by omega) (by omega)
      rw [writeBytes, show a + (k + 1) = a + 1 + k by omega, this]
      rfl

/-- The idle frame of reset stands in canonical form (70_reset_and_hazards.md R115). -/
theorem wf_idleFrame : Memory.idleFrame.wf = true := by decide

theorem wf_nil : Memory.wf [] = true := rfl

end Memory

end Sys2Proof.Machine
end

