-- ==== Sys2Proof/Laws/State.lean ====
section
/-! SUPPORT. Laws/State: what each update of the state leaves in each field, so that no proof unfolds a record update. -/

namespace Sys2Proof.Machine

section respond
variable (s : State) (r : Response)
@[simp] theorem State.respond_slots : (s.respond r).slots = s.slots := rfl
@[simp] theorem State.respond_curSlot : (s.respond r).curSlot = s.curSlot := rfl
@[simp] theorem State.respond_curBit : (s.respond r).curBit = s.curBit := rfl
@[simp] theorem State.respond_fault : (s.respond r).fault = s.fault := rfl
@[simp] theorem State.respond_params : (s.respond r).params = s.params := rfl
@[simp] theorem State.respond_pending : (s.respond r).pending = s.pending := rfl
@[simp] theorem State.respond_resp : (s.respond r).resp = r := rfl
@[simp] theorem State.respond_nslots : (s.respond r).nslots = s.nslots := rfl
@[simp] theorem State.respond_slot? (i : BitVec 8) : (s.respond r).slot? i = s.slot? i := rfl
end respond

section takeFault
variable (s : State) (c : FaultCode) (r : Response)
@[simp] theorem State.takeFault_slots : (s.takeFault c r).slots = s.slots := rfl
@[simp] theorem State.takeFault_curSlot : (s.takeFault c r).curSlot = s.curSlot := rfl
@[simp] theorem State.takeFault_curBit : (s.takeFault c r).curBit = s.curBit := rfl
@[simp] theorem State.takeFault_fault : (s.takeFault c r).fault = s.fault.record c := rfl
@[simp] theorem State.takeFault_params : (s.takeFault c r).params = s.params := rfl
@[simp] theorem State.takeFault_pending : (s.takeFault c r).pending = s.pending := rfl
@[simp] theorem State.takeFault_resp : (s.takeFault c r).resp = r := rfl
@[simp] theorem State.takeFault_nslots : (s.takeFault c r).nslots = s.nslots := rfl
@[simp] theorem State.takeFault_slot? (i : BitVec 8) : (s.takeFault c r).slot? i = s.slot? i := rfl
end takeFault

section setSlot
variable (s : State) (i : BitVec 8) (sl : Slot)
@[simp] theorem State.setSlot_slots : (s.setSlot i sl).slots = s.slots.set i.toNat sl := rfl
@[simp] theorem State.setSlot_curSlot : (s.setSlot i sl).curSlot = s.curSlot := rfl
@[simp] theorem State.setSlot_curBit : (s.setSlot i sl).curBit = s.curBit := rfl
@[simp] theorem State.setSlot_fault : (s.setSlot i sl).fault = s.fault := rfl
@[simp] theorem State.setSlot_params : (s.setSlot i sl).params = s.params := rfl
@[simp] theorem State.setSlot_pending : (s.setSlot i sl).pending = s.pending := rfl
@[simp] theorem State.setSlot_resp : (s.setSlot i sl).resp = s.resp := rfl
@[simp] theorem State.setSlot_nslots : (s.setSlot i sl).nslots = s.nslots := by
  simp [State.nslots]
end setSlot

section setCursor
variable (s : State) (k j : Nat)
@[simp] theorem State.setCursor_slots : (s.setCursor k j).slots = s.slots := rfl
@[simp] theorem State.setCursor_curSlot : (s.setCursor k j).curSlot = BitVec.ofNat 8 k := rfl
@[simp] theorem State.setCursor_curBit : (s.setCursor k j).curBit = BitVec.ofNat 8 j := rfl
@[simp] theorem State.setCursor_fault : (s.setCursor k j).fault = s.fault := rfl
@[simp] theorem State.setCursor_params : (s.setCursor k j).params = s.params := rfl
@[simp] theorem State.setCursor_pending : (s.setCursor k j).pending = s.pending := rfl
@[simp] theorem State.setCursor_resp : (s.setCursor k j).resp = s.resp := rfl
@[simp] theorem State.setCursor_nslots : (s.setCursor k j).nslots = s.nslots := rfl
@[simp] theorem State.setCursor_slot? (i : BitVec 8) : (s.setCursor k j).slot? i = s.slot? i := rfl
@[simp] theorem State.setCursor_getSlot (i : BitVec 8) : (s.setCursor k j).getSlot i = s.getSlot i := rfl
end setCursor

section dropRequest
variable (s : State)
@[simp] theorem State.dropRequest_slots : s.dropRequest.slots = s.slots := rfl
@[simp] theorem State.dropRequest_curSlot : s.dropRequest.curSlot = s.curSlot := rfl
@[simp] theorem State.dropRequest_curBit : s.dropRequest.curBit = s.curBit := rfl
@[simp] theorem State.dropRequest_fault : s.dropRequest.fault = s.fault := rfl
@[simp] theorem State.dropRequest_params : s.dropRequest.params = s.params := rfl
@[simp] theorem State.dropRequest_pending : s.dropRequest.pending = s.pending.tail := rfl
@[simp] theorem State.dropRequest_resp : s.dropRequest.resp = s.resp := rfl
@[simp] theorem State.dropRequest_nslots : s.dropRequest.nslots = s.nslots := rfl
@[simp] theorem State.dropRequest_slot? (i : BitVec 8) : s.dropRequest.slot? i = s.slot? i := rfl
end dropRequest

section reset
variable (n : Nat) (p : Config.Params) (rs : List Request)
@[simp] theorem State.resetWith_slots : (State.resetWith n p rs).slots = List.replicate n Slot.reset := rfl
@[simp] theorem State.resetWith_curSlot : (State.resetWith n p rs).curSlot = 0#8 := rfl
@[simp] theorem State.resetWith_curBit : (State.resetWith n p rs).curBit = 0#8 := rfl
@[simp] theorem State.resetWith_fault : (State.resetWith n p rs).fault = .none := rfl
@[simp] theorem State.resetWith_params : (State.resetWith n p rs).params = p := rfl
@[simp] theorem State.resetWith_pending : (State.resetWith n p rs).pending = rs := rfl
@[simp] theorem State.resetWith_resp : (State.resetWith n p rs).resp = .nothing := rfl
@[simp] theorem State.resetWith_nslots : (State.resetWith n p rs).nslots = n := by
  simp [State.nslots]
end reset

section slot
variable (sl : Slot) (p q : BitVec 1) (b : Buffer)

/-- A buffer index is 0 or 1. -/
theorem bufIndex_cases : p = 0#1 ∨ p = 1#1 := by
  revert p; decide

@[simp] theorem Slot.setBuf_act : (sl.setBuf p b).act = sl.act := by
  simp only [Slot.setBuf]; split <;> rfl
@[simp] theorem Slot.buf_setBuf_same : (sl.setBuf p b).buf p = b := by
  simp only [Slot.setBuf, Slot.buf]; split <;> rfl
theorem Slot.buf_setBuf_other (h : q ≠ p) : (sl.setBuf p b).buf q = sl.buf q := by
  rcases bufIndex_cases p with rfl | rfl <;> rcases bufIndex_cases q with rfl | rfl <;>
    simp_all [Slot.setBuf, Slot.buf]

/-- The staging buffer is not the active one (10_state.md R25). -/
theorem Slot.stg_ne_act : sl.stg ≠ sl.act := by
  rcases bufIndex_cases sl.act with h | h <;> simp [Slot.stg, h]
theorem Slot.act_ne_stg : sl.act ≠ sl.stg := (sl.stg_ne_act).symm
@[simp] theorem Slot.setBuf_stg : (sl.setBuf p b).stg = sl.stg := by
  simp [Slot.stg]
theorem Slot.setBuf_staging_active : (sl.setBuf sl.stg b).active = sl.active := by
  simp [Slot.active, Slot.buf_setBuf_other _ _ _ _ sl.act_ne_stg]
theorem Slot.setBuf_staging_staging : (sl.setBuf sl.stg b).staging = b := by
  simp [Slot.staging]

@[simp] theorem Buffer.emptied_mem (c : Buffer) : c.emptied.mem = c.mem := rfl
@[simp] theorem Buffer.emptied_nbytes (c : Buffer) : c.emptied.nbytes = 0#5 := rfl
@[simp] theorem Buffer.emptied_ncmd (c : Buffer) : c.emptied.ncmd = 0#2 := rfl
end slot

end Sys2Proof.Machine
end

