-- ==== Sys2Proof/Laws/Ops.lean ====
section
/-! SUPPORT. Laws/Ops: for each shared operation, once, everything it can do. -/

namespace Sys2Proof.Machine

/-! ### One buffer -/

/-- PKT_APPEND's body, taken apart: one of three faults in their order, or the appended buffer (42_packet.md R81). -/
theorem Buffer.append_cases (b : Buffer) (c : List Byte) :
    (b.append c = .error .cmdLen ∧ (c.length < 3 ∨ 6 < c.length)) ∨
    (b.append c = .error .checksum ∧ 3 ≤ c.length ∧ c.length ≤ 6 ∧ chk c ≠ 0#8) ∨
    (b.append c = .error .capacity ∧ CmdWellFormed c = true ∧
      (b.ncmd.toNat = 3 ∨ 30 < b.nbytes.toNat + frameLen c.length)) ∨
    (b.append c = .ok (b.appended c) ∧ CmdWellFormed c = true ∧
      b.ncmd.toNat < 3 ∧ b.nbytes.toNat + frameLen c.length ≤ 30) := by
  have hn : b.ncmd.toNat < 4 := b.ncmd.isLt
  unfold Buffer.append
  simp only [Config.maxCmds, Config.capBytes, cmdWellFormed_iff]
  have hl := cmdLenOutOfRange_iff c.length
  by_cases h1 : cmdLenOutOfRange c.length = true
  · simp [h1, hl.1 h1]
  · have h1' := mt hl.2 h1
    by_cases h2 : chk c = 0#8
    · by_cases h3 : b.ncmd.toNat = 3 ∨ 30 < b.nbytes.toNat + frameLen c.length
      · refine .inr (.inr (.inl ⟨by simp [h1, h2, h3], ⟨by omega, by omega, h2⟩, h3⟩))
      · exact .inr (.inr (.inr ⟨by simp [h1, h2, h3], ⟨by omega, by omega, h2⟩, by omega, by omega⟩))
    · exact .inr (.inl ⟨by simp [h1, h2], by omega, by omega, h2⟩)

/-- PKT_APPEND's body on a command that fits (42_packet.md R81). -/
theorem Buffer.append_ok {b : Buffer} {c : List Byte} (hc : CmdWellFormed c = true) (hn : b.ncmd.toNat < 3)
    (hf : b.nbytes.toNat + frameLen c.length ≤ 30) : b.append c = .ok (b.appended c) := by
  have hw := (cmdWellFormed_iff c).1 hc
  rcases b.append_cases c with h | h | h | h
  · omega
  · exact absurd hw.2.2 h.2.2.2
  · omega
  · exact h.1

theorem Buffer.appended_nbytes {b : Buffer} {c : List Byte} (hf : b.nbytes.toNat + frameLen c.length ≤ 30) :
    (b.appended c).nbytes.toNat = b.nbytes.toNat + frameLen c.length := by
  simp only [Buffer.appended, BitVec.toNat_ofNat]; omega

theorem Buffer.appended_ncmd {b : Buffer} {c : List Byte} (hn : b.ncmd.toNat < 3) :
    (b.appended c).ncmd.toNat = b.ncmd.toNat + 1 := by
  simp only [Buffer.appended, BitVec.toNat_ofNat]; omega

@[simp] theorem Buffer.appended_mem (b : Buffer) (c : List Byte) :
    (b.appended c).mem = b.mem.writeBytes b.nbytes.toNat (frame c) := rfl

@[simp] theorem Buffer.content_length (b : Buffer) : b.content.length = b.nbytes.toNat := by
  simp [Buffer.content]

@[simp] theorem Buffer.emptied_content (b : Buffer) : b.emptied.content = [] := by
  simp [Buffer.content]

/-- The content of a Packet after an append is the content before it and then the frame (42_packet.md R81). -/
theorem Buffer.appended_content {b : Buffer} {c : List Byte} (hm : b.mem.wf = true)
    (hf : b.nbytes.toNat + frameLen c.length ≤ 30) : (b.appended c).content = b.content ++ frame c := by
  have hb := b.appended_nbytes hf
  refine List.ext_getElem (by simp [hb]) fun k h1 h2 => ?_
  simp only [Buffer.content_length, hb] at h1
  rw [List.getElem_append]
  split
  · rename_i hk
    simp only [Buffer.content_length] at hk
    simp [Buffer.content, Memory.read_writeBytes_outside (.inl hk)]
  · rename_i hk
    simp only [Buffer.content_length, not_lt] at hk
    have := Memory.read_writeBytes_inside (m := b.mem) (a := b.nbytes.toNat) (k := k - b.nbytes.toNat) (vs := frame c) hm
      (by simpa [Config.capBytes] using hf) (by simp; omega)
    rw [show b.nbytes.toNat + (k - b.nbytes.toNat) = k by omega] at this
    simp [Buffer.content, this]

/-! ### Well-formed buffers (10_state.md R29) -/

theorem Buffer.wellFormed_emptied {b : Buffer} (h : b.WellFormed) : b.emptied.WellFormed :=
  ⟨h.canonical, [], by simp⟩

theorem Buffer.wellFormed_appended {b : Buffer} {c : List Byte} (h : b.WellFormed) (hc : CmdWellFormed c = true)
    (hn : b.ncmd.toNat < 3) (hf : b.nbytes.toNat + frameLen c.length ≤ 30) : (b.appended c).WellFormed := by
  obtain ⟨hm, cmds, hl, hw, hcont⟩ := h
  refine ⟨Memory.wf_writeBytes hm (by simpa [Config.capBytes] using hf), cmds ++ [c], ?_, ?_, ?_⟩
  · simp [hl, Buffer.appended_ncmd hn]
  · intro d hd
    rcases List.mem_append.1 hd with hd | hd
    · exact hw d hd
    · obtain rfl := List.mem_singleton.1 hd
      exact hc
  · rw [Buffer.appended_content hm hf, hcont]
    simp

/-- Frames of well-formed commands take 7 to 10 bytes each (42_packet.md R78). -/
theorem frames_length {cmds : List (List Byte)} (hw : ∀ c ∈ cmds, CmdWellFormed c = true) :
    7 * cmds.length ≤ (cmds.flatMap frame).length ∧ (cmds.flatMap frame).length ≤ 10 * cmds.length := by
  induction cmds with
  | nil => simp
  | cons c cmds ih =>
    have hc := (cmdWellFormed_iff c).1 (hw c (by simp))
    have hr := frameLen_range hc.1 hc.2.1
    have ih := ih fun d hd => hw d (by simp [hd])
    simp only [List.flatMap_cons, List.length_append, frame_length, List.length_cons]
    omega

/-- The byte count of a well-formed buffer lies between 7 and 10 times its command count (10_state.md R29, R30). -/
theorem Buffer.nbytes_range {b : Buffer} (h : b.WellFormed) :
    7 * b.ncmd.toNat ≤ b.nbytes.toNat ∧ b.nbytes.toNat ≤ 10 * b.ncmd.toNat := by
  obtain ⟨-, cmds, hl, hw, hc⟩ := h
  have hf := frames_length hw
  rw [← hc, hl, Buffer.content_length] at hf
  exact hf

/-! ### Bits of a Packet -/

theorem bitsOf_getElem? (q : List Byte) (i : Nat) :
    (bitsOf q)[i]? = (q[i / 8]?).map fun b => bitMsbFirst b (i % 8) := by
  induction q generalizing i with
  | nil => simp
  | cons b q ih =>
    rw [bitsOf_cons, List.getElem?_append]
    by_cases h : i < 8
    · have : i / 8 = 0 := by omega
      rw [if_pos (by simpa using h), this, show i % 8 = i by omega]
      revert i; simp only [bits8]
      intro i h _
      interval_cases i <;> rfl
    · have : i / 8 = (i - 8) / 8 + 1 := by omega
      rw [if_neg (by simpa using h), bits8_length, ih, this, show (i - 8) % 8 = i % 8 by omega]
      rfl

/-- The bits of a Packet are the bits of its content bytes (20_memory.md R35). -/
theorem Buffer.bits_eq (b : Buffer) : b.bits = bitsOf b.content := by
  refine List.ext_getElem? fun i => ?_
  rw [bitsOf_getElem?]
  by_cases h : i < b.lenbits
  · have : i / 8 < b.nbytes.toNat := by simp only [Buffer.lenbits] at h; omega
    simp [Buffer.bits, Buffer.content, h, this, Buffer.bitAt]
  · have : ¬ i / 8 < b.nbytes.toNat := by simp only [Buffer.lenbits] at h; omega
    simp [Buffer.bits, Buffer.content, h, this]

/-- The last bit of a Packet that is not empty is a one: its last padding bit (42_packet.md R82). -/
theorem Buffer.last_bit {b : Buffer} (h : b.WellFormed) (hn : b.nbytes ≠ 0#5) : b.bitAt (b.lenbits - 1) = true := by
  have hb := b.bits_eq
  obtain ⟨-, cmds, -, hw, hc⟩ := h
  have hpos : 0 < b.nbytes.toNat := Nat.pos_of_ne_zero fun h0 => hn (BitVec.eq_of_toNat_eq h0)
  have hlen : b.nbytes.toNat = (cmds.flatMap frame).length := by rw [← hc, Buffer.content_length]
  rcases List.eq_nil_or_concat cmds with rfl | ⟨cs, c, rfl⟩
  · exact absurd hlen (by simpa using hpos.ne')
  · have hcw : CmdWellFormed c = true := hw c (by simp)
    have hr := frameLen_range ((cmdWellFormed_iff c).1 hcw).1 ((cmdWellFormed_iff c).1 hcw).2.1
    simp only [List.concat_eq_append, List.flatMap_append, List.flatMap_singleton, List.length_append, frame_length] at hlen
    have hk : b.lenbits - 1 = 8 * (cs.flatMap frame).length + (8 * frameLen c.length - 1) := by
      simp only [Buffer.lenbits]; omega
    have hlt : b.lenbits - 1 < b.lenbits := by simp only [Buffer.lenbits]; omega
    have hi : b.bits[b.lenbits - 1]? = some true := by
      rw [hb, hc, hk, List.concat_eq_append, List.flatMap_append, List.flatMap_singleton, bitsOf_append,
        List.getElem?_append_right (by simp), bitsOf_length, Nat.add_sub_cancel_left]
      exact frame_last_bit hcw
    simpa [Buffer.bits, hlt] using hi

/-! ### Slots -/

/-- A flip, taken apart: nothing where the staging Packet is empty, else the roles swap and the formerly active Packet is
emptied (43_slot.md R85). -/
theorem Slot.flipped_cases (sl : Slot) :
    (sl.staging.nbytes = 0#5 ∧ sl.flipped = sl) ∨
    (sl.staging.nbytes ≠ 0#5 ∧ sl.flipped.act = sl.stg ∧ sl.flipped.active = sl.staging ∧
      sl.flipped.staging = sl.active.emptied) := by
  by_cases h : sl.staging.nbytes = 0#5
  · exact .inl ⟨h, by simp [Slot.flipped, h]⟩
  · refine .inr ⟨h, ?_⟩
    rcases bufIndex_cases sl.act with ha | ha <;>
      simp_all [Slot.flipped, Slot.staging, Slot.active, Slot.stg, Slot.buf, Slot.setBuf]

/-- A flip leaves every byte of both buffers (43_slot.md R85: role swap, no data copy). -/
theorem Slot.flipped_buf_mem (sl : Slot) (p : BitVec 1) : (sl.flipped.buf p).mem = (sl.buf p).mem := by
  by_cases h : sl.staging.nbytes = 0#5
  · simp [Slot.flipped, h]
  · rcases bufIndex_cases sl.act with ha | ha <;> rcases bufIndex_cases p with rfl | rfl <;>
      simp_all [Slot.flipped, Slot.staging, Slot.active, Slot.stg, Slot.buf, Slot.setBuf]

theorem Slot.WellFormed.buf {sl : Slot} (h : sl.WellFormed) (p : BitVec 1) : (sl.buf p).WellFormed := by
  unfold Slot.buf; split
  · exact h.buf0
  · exact h.buf1

/-- A flip keeps a Slot well formed: an empty Packet never becomes active (43_slot.md R85; 10_state.md R30). -/
theorem Slot.wellFormed_flipped {sl : Slot} (h : sl.WellFormed) : sl.flipped.WellFormed := by
  have hs := Buffer.nbytes_range (h.buf sl.stg)
  rcases sl.flipped_cases with ⟨-, he⟩ | ⟨hne, hact, hactive, hst⟩
  · rw [he]; exact h
  · have h0 : (sl.flipped.buf sl.flipped.act).WellFormed := by
      have : sl.flipped.active = sl.flipped.buf sl.flipped.act := rfl
      rw [← this, hactive]; exact h.buf _
    have h1 : (sl.flipped.buf sl.flipped.stg).WellFormed := by
      have : sl.flipped.staging = sl.flipped.buf sl.flipped.stg := rfl
      rw [← this, hst]; exact Buffer.wellFormed_emptied (h.buf _)
    have hpos : 1 ≤ sl.flipped.active.ncmd.toNat := by
      rw [hactive]
      have hz : sl.staging.nbytes.toNat ≠ 0 := fun hz => hne (BitVec.eq_of_toNat_eq hz)
      change 7 * sl.staging.ncmd.toNat ≤ _ ∧ sl.staging.nbytes.toNat ≤ 10 * sl.staging.ncmd.toNat at hs
      omega
    rcases bufIndex_cases sl.flipped.act with ha | ha
    · exact ⟨by simpa [Slot.buf, ha] using h0, by simpa [Slot.buf, Slot.stg, ha] using h1, hpos⟩
    · exact ⟨by simpa [Slot.buf, Slot.stg, ha] using h1, by simpa [Slot.buf, ha] using h0, hpos⟩

/-- A well-formed staging buffer put in place keeps the Slot well formed. -/
theorem Slot.wellFormed_setStaging {sl : Slot} {b : Buffer} (h : sl.WellFormed) (hb : b.WellFormed) :
    (sl.setBuf sl.stg b).WellFormed := by
  have ha : 1 ≤ (sl.setBuf sl.stg b).active.ncmd.toNat := by
    rw [Slot.setBuf_staging_active]; exact h.activeNonempty
  refine ⟨?_, ?_, ha⟩ <;> unfold Slot.setBuf <;> split
  · exact hb
  · exact h.buf0
  · exact h.buf1
  · exact hb

/-! ### The Slots of the block -/

/-- Naming a slot: it exists, or the fault is F_SLOT_INDEX (20_memory.md R33; 60_exceptions.md R101). -/
theorem State.getSlot_cases (s : State) (i : BitVec 8) :
    (∃ sl, s.getSlot i = .ok sl ∧ s.slot? i = some sl ∧ s.slots[i.toNat]? = some sl ∧ i.toNat < s.nslots) ∨
    (s.getSlot i = .error .slotIndex ∧ s.slot? i = none ∧ s.nslots ≤ i.toNat) := by
  unfold State.getSlot
  cases h : s.slot? i with
  | some sl => exact .inl ⟨sl, rfl, rfl, h, (List.getElem?_eq_some_iff.1 h).1⟩
  | none => exact .inr ⟨rfl, rfl, List.getElem?_eq_none_iff.1 h⟩

theorem State.getSlot_of_some {s : State} {i : BitVec 8} {sl : Slot} (h : s.slot? i = some sl) :
    s.getSlot i = .ok sl := by
  simp [State.getSlot, h]

theorem State.slot?_lt {s : State} {i : BitVec 8} {sl : Slot} (h : s.slot? i = some sl) : i.toNat < s.nslots :=
  (List.getElem?_eq_some_iff.1 h).1

theorem State.slot?_setSlot_same {s : State} {i : BitVec 8} {sl : Slot} (h : i.toNat < s.nslots) :
    (s.setSlot i sl).slot? i = some sl := by
  simp only [State.slot?, State.setSlot_slots]
  exact List.getElem?_set_self h

theorem State.slot?_setSlot_other {s : State} {i j : BitVec 8} {sl : Slot} (h : i ≠ j) :
    (s.setSlot i sl).slot? j = s.slot? j := by
  simp only [State.slot?, State.setSlot_slots]
  exact List.getElem?_set_ne (fun he => h (BitVec.eq_of_toNat_eq he))

/-! ### Ends of operations -/

/-- The fault register after a fault keeps the first code (60_exceptions.md R106). -/
theorem FaultCode.record_of_none (c : FaultCode) : FaultCode.none.record c = c := rfl
theorem FaultCode.record_of_fault {o : FaultCode} (h : o ≠ .none) (c : FaultCode) : o.record c = o := by
  simp [FaultCode.record, h]

/-- A fault code reads as 0 only when it is NONE (60_exceptions.md R99). -/
theorem FaultCode.code_eq_zero {c : FaultCode} : c.code = 0#3 ↔ c = .none := by
  cases c <;> decide

/-- How an operation ends, taken apart: always a next state, with its result or with its fault (00_scope.md R18). -/
theorem finish_cases (s : State) (shown : FaultCode → Response) (res : Except FaultCode (State × Response)) :
    (∃ t r, res = .ok (t, r) ∧ finish s shown res = .next (t.respond r)) ∨
    (∃ c, res = .error c ∧ finish s shown res = .next (s.takeFault c (shown c))) := by
  cases res with
  | ok tr => exact .inl ⟨tr.1, tr.2, rfl, rfl⟩
  | error c => exact .inr ⟨c, rfl, rfl⟩

@[simp] theorem finish_ok (s t : State) (shown : FaultCode → Response) (r : Response) :
    finish s shown (.ok (t, r)) = .next (t.respond r) := rfl
@[simp] theorem finish_error (s : State) (shown : FaultCode → Response) (c : FaultCode) :
    finish s shown (.error c) = .next (s.takeFault c (shown c)) := rfl
@[simp] theorem Except_map_ok {α β : Type} (f : α → β) (a : α) :
    (Except.ok a : Except FaultCode α).map f = .ok (f a) := rfl
@[simp] theorem Except_map_error {α β : Type} (f : α → β) (c : FaultCode) :
    (Except.error c : Except FaultCode α).map f = .error c := rfl

/-! ### Internal operations on a slot that exists -/

section
variable {s : State} {i : BitVec 8} {sl : Slot} (h : s.slot? i = some sl)
include h

theorem pktReset_of_slot (p : BitVec 1) : pktReset s i p = .ok (s.setSlot i (sl.setBuf p (sl.buf p).emptied)) := by
  simp [pktReset, State.getSlot_of_some h]

theorem pktAppend_of_slot (p : BitVec 1) (c : List Byte) :
    pktAppend s i p c = ((sl.buf p).append c).map fun b => s.setSlot i (sl.setBuf p b) := by
  simp only [pktAppend, State.getSlot_of_some h]
  cases (sl.buf p).append c <;> rfl

theorem pktGetbit_of_slot (p : BitVec 1) (k : BitVec 8) : pktGetbit s i p k = (sl.buf p).getBit k.toNat := by
  simp [pktGetbit, State.getSlot_of_some h]

theorem pktLength_of_slot (p : BitVec 1) : pktLength s i p = .ok (BitVec.ofNat 8 (sl.buf p).lenbits) := by
  simp [pktLength, State.getSlot_of_some h]

theorem slotStage_of_slot : slotStage s i = .ok sl.stg := by
  simp [slotStage, State.getSlot_of_some h]

theorem slotFlip_of_slot : slotFlip s i = .ok (s.setSlot i sl.flipped) := by
  simp [slotFlip, State.getSlot_of_some h]

theorem slotGetbit_of_slot (k : BitVec 8) : slotGetbit s i k = sl.active.getBit k.toNat := by
  simp only [slotGetbit, State.getSlot_of_some h, pktGetbit_of_slot h]
  rfl

theorem slotLength_of_slot : slotLength s i = .ok (BitVec.ofNat 8 sl.active.lenbits) := by
  simp only [slotLength, State.getSlot_of_some h, pktLength_of_slot h]
  rfl

theorem stageReset_of_slot :
    stageReset s i = .ok (s.setSlot i (sl.setBuf sl.stg sl.staging.emptied)) := by
  have := State.slot?_lt h
  simp only [stageReset, slotStage_of_slot h, pktReset_of_slot h, if_neg (show ¬ s.nslots ≤ i.toNat by omega)]
  rfl

theorem stageAppend_of_slot (n : BitVec 3) (b0 b1 b2 b3 b4 b5 : Byte) :
    stageAppend s i n b0 b1 b2 b3 b4 b5 =
      if cmdLenOutOfRange n.toNat then .error .cmdLen
      else (sl.staging.append (cmdBytes n b0 b1 b2 b3 b4 b5)).map fun b => s.setSlot i (sl.setBuf sl.stg b) := by
  have := State.slot?_lt h
  simp only [stageAppend, slotStage_of_slot h, pktAppend_of_slot h, if_neg (show ¬ s.nslots ≤ i.toNat by omega)]
  rfl

end

/-- A length in bits fits the 8-bit result of PKT_LENGTH (42_packet.md R83). -/
theorem Buffer.lenbits_lt (b : Buffer) : b.lenbits < 256 := by
  have : b.nbytes.toNat < 32 := b.nbytes.isLt
  simp only [Buffer.lenbits]; omega

/-! ### NEXTBIT -/

/-- The slot entered at a boundary exists (44_refresh.md R89). -/
theorem State.entered_lt {s : State} (h : 1 ≤ s.nslots) (hm : s.nslots ≤ 256) :
    (BitVec.ofNat 8 ((s.curSlot.toNat + 1) % s.nslots)).toNat = (s.curSlot.toNat + 1) % s.nslots ∧
      (s.curSlot.toNat + 1) % s.nslots < s.nslots := by
  have := Nat.mod_lt (s.curSlot.toNat + 1) (show 0 < s.nslots by omega)
  exact ⟨by simp only [BitVec.toNat_ofNat]; omega, this⟩

/-- NEXTBIT inside a Packet (44_refresh.md R89). -/
theorem nextbit_inside {s : State} {sl : Slot} (h : s.slot? s.curSlot = some sl)
    (hi : s.curBit.toNat + 1 < sl.active.lenbits) :
    nextbit s = .ok (s.setCursor s.curSlot.toNat (s.curBit.toNat + 1), sl.active.bitAt s.curBit.toNat) := by
  have hl := sl.active.lenbits_lt
  have hb : slotGetbit s s.curSlot s.curBit = .ok (sl.active.bitAt s.curBit.toNat) := by
    rw [slotGetbit_of_slot h, Buffer.getBit, if_neg (by omega)]
  have ha : advance s = .ok (s.setCursor s.curSlot.toNat (s.curBit.toNat + 1)) := by
    simp only [advance, slotLength_of_slot h, BitVec.toNat_ofNat]
    rw [if_neg (by omega)]
  simp only [nextbit, hb, ha]

/-- NEXTBIT at the last bit of a Packet: the next slot is entered and flipped (44_refresh.md R89). -/
theorem nextbit_boundary {s : State} {sl sl2 : Slot} (h : s.slot? s.curSlot = some sl) (hm : s.nslots ≤ 256)
    (hi : s.curBit.toNat + 1 = sl.active.lenbits)
    (h2 : s.slots[(s.curSlot.toNat + 1) % s.nslots]? = some sl2) :
    nextbit s = .ok
      ((s.setCursor ((s.curSlot.toNat + 1) % s.nslots) 0).setSlot
        (BitVec.ofNat 8 ((s.curSlot.toNat + 1) % s.nslots)) sl2.flipped, sl.active.bitAt s.curBit.toNat) := by
  have hl := sl.active.lenbits_lt
  have hn : 1 ≤ s.nslots := by have := State.slot?_lt h; omega
  have he := State.entered_lt hn hm
  have hb : slotGetbit s s.curSlot s.curBit = .ok (sl.active.bitAt s.curBit.toNat) := by
    rw [slotGetbit_of_slot h, Buffer.getBit, if_neg (by omega)]
  have h2' : (s.setCursor ((s.curSlot.toNat + 1) % s.nslots) 0).slot?
      (BitVec.ofNat 8 ((s.curSlot.toNat + 1) % s.nslots)) = some sl2 := by
    rw [State.setCursor_slot?, State.slot?, he.1, h2]
  simp only [nextbit, hb, advance, slotLength_of_slot h, BitVec.toNat_ofNat,
    if_pos (show s.curBit.toNat + 1 = sl.active.lenbits % 2 ^ 8 by omega), slotFlip_of_slot h2']

/-- Everything NEXTBIT can do: raise a fault (in no state with its cursor in range, 10_state.md R31), move inside a Packet,
or enter and flip the next slot (44_refresh.md R89). -/
theorem nextbit_cases {s : State} {t : State} {b : Bool} (hm : s.nslots ≤ 256) (h : nextbit s = .ok (t, b)) :
    ∃ sl, s.slot? s.curSlot = some sl ∧ s.curBit.toNat < sl.active.lenbits ∧ b = sl.active.bitAt s.curBit.toNat ∧
      ((s.curBit.toNat + 1 < sl.active.lenbits ∧ t = s.setCursor s.curSlot.toNat (s.curBit.toNat + 1)) ∨
       (s.curBit.toNat + 1 = sl.active.lenbits ∧ ∃ sl2, s.slots[(s.curSlot.toNat + 1) % s.nslots]? = some sl2 ∧
          t = (s.setCursor ((s.curSlot.toNat + 1) % s.nslots) 0).setSlot
            (BitVec.ofNat 8 ((s.curSlot.toNat + 1) % s.nslots)) sl2.flipped)) := by
  rcases s.getSlot_cases s.curSlot with ⟨sl, hg, hs, -, hlt⟩ | ⟨hg, -, -⟩
  · refine ⟨sl, hs, ?_⟩
    by_cases hr : s.curBit.toNat < sl.active.lenbits
    · refine ⟨hr, ?_⟩
      by_cases hi : s.curBit.toNat + 1 < sl.active.lenbits
      · rw [nextbit_inside hs hi] at h
        cases h
        exact ⟨rfl, .inl ⟨hi, rfl⟩⟩
      · have hb : s.curBit.toNat + 1 = sl.active.lenbits := by omega
        have he := (State.entered_lt (by omega) hm).2
        have h2 : s.slots[(s.curSlot.toNat + 1) % s.nslots]? = some (s.slots[(s.curSlot.toNat + 1) % s.nslots]'he) :=
          List.getElem?_eq_getElem he
        rw [nextbit_boundary hs hm hb h2] at h
        cases h
        exact ⟨rfl, .inr ⟨hb, _, h2, rfl⟩⟩
    · simp [nextbit, slotGetbit_of_slot hs, Buffer.getBit, Nat.le_of_not_lt hr] at h
  · simp [nextbit, slotGetbit, hg] at h

end Sys2Proof.Machine
end

