-- ==== Sys2Proof/Laws/PerInstr.lean ====
section
/-! SUPPORT. Laws/PerInstr: one family of statements over all operations: the word an operation encodes to matches its row of
spec/opcode_table.json. -/

namespace Sys2Proof.Laws.TableRow

/-- A row of spec/opcode_table.json: its width, mask and match. -/
structure Row where
  width : Nat
  mask : Nat
  value : Nat

/-- The row of each operation, copied from spec/opcode_table.json; an internal operation's row has no bits. -/
def rowOf : Instr → Option Row
  | .encIdle => some ⟨32, 0x80000007, 0x00000000⟩
  | .encThrottle _ _ _ _ => some ⟨32, 0x80000007, 0x00000001⟩
  | .encFg1 _ _ => some ⟨32, 0x80000007, 0x00000002⟩
  | .encFg2l _ _ => some ⟨32, 0x80000007, 0x00000003⟩
  | .encFg2h _ _ => some ⟨32, 0x80000007, 0x00000004⟩
  | .pNop => some ⟨64, 0x00000000000000E3, 0x0000000000000000⟩
  | .stageReset _ => some ⟨64, 0x00000000000000E3, 0x0000000000000001⟩
  | .stageAppend _ _ _ _ _ _ _ _ => some ⟨64, 0x00000000000000E3, 0x0000000000000002⟩
  | .nextbit => some ⟨1, 0x1, 0x1⟩
  | .pktReset _ _ => none
  | .pktAppend _ _ _ => none
  | .pktGetbit _ _ _ => none
  | .pktLength _ _ => none
  | .slotStage _ => none
  | .slotFlip _ => none
  | .slotGetbit _ _ => none
  | .slotLength _ => none

/-- The word at a port matches a row. -/
def Matches (r : Row) : PortWord → Prop
  | .encreq w => r.width = 32 ∧ w &&& BitVec.ofNat 32 r.mask = BitVec.ofNat 32 r.value
  | .preq w => r.width = 64 ∧ w &&& BitVec.ofNat 64 r.mask = BitVec.ofNat 64 r.value
  | .nbReq => r.width = 1 ∧ 1#1 &&& BitVec.ofNat 1 r.mask = BitVec.ofNat 1 r.value

/-- An operation with a row of bits has a word, which matches the row; an internal operation has no word
(30_encoding.md R47, R49, R50). -/
def Statement (i : Instr) : Prop :=
  match rowOf i with
  | none => encode i = none
  | some r => ∃ p, encode i = some p ∧ Matches r p

/-- The fixed bits of an `ENCREQ` are its kind and its reserved bit. -/
theorem encReq_fixed (f : BitVec 5) (e d : Bool) (s : BitVec 7) (a : BitVec 14) (k : BitVec 3) :
    encReqWord f e d s a k &&& 0x80000007#32 = k.setWidth 32 := by
  have hk : encKind (encReqWord f e d s a k) = k := encKind_word f e d s a k
  have hr : encRsv (encReqWord f e d s a k) = false := encRsv_word f e d s a k
  generalize encReqWord f e d s a k = w at hk hr
  subst hk
  apply BitVec.eq_of_getLsbD_eq
  intro i hi
  simp only [encRsv] at hr
  simp only [encKind, BitVec.getLsbD_and, BitVec.getLsbD_setWidth, BitVec.getLsbD_extractLsb']
  interval_cases i <;> first | (simp; done) | (simp; exact hr)

/-- The fixed bits of a `PREQ` are its op and its reserved bits. -/
theorem preq_fixed (b5 b4 b3 b2 b1 b0 : Byte) (slot : BitVec 8) (n : BitVec 3) (op : BitVec 2) :
    preqWord b5 b4 b3 b2 b1 b0 slot n op &&& 0xE3#64 = op.setWidth 64 := by
  have hk : preqOp (preqWord b5 b4 b3 b2 b1 b0 slot n op) = op := preqOp_word b5 b4 b3 b2 b1 b0 slot n op
  have hr : preqRsv (preqWord b5 b4 b3 b2 b1 b0 slot n op) = 0#3 := preqRsv_word b5 b4 b3 b2 b1 b0 slot n op
  generalize preqWord b5 b4 b3 b2 b1 b0 slot n op = w at hk hr
  subst hk
  have bit (j : Nat) (hj : j < 3) : w.getLsbD (5 + j) = false := by
    have := congrArg (fun x => BitVec.getLsbD x j) hr
    simpa [preqRsv, hj] using this
  have h5 := bit 0 (by decide)
  have h6 := bit 1 (by decide)
  have h7 := bit 2 (by decide)
  apply BitVec.eq_of_getLsbD_eq
  intro i hi
  simp only [preqOp, BitVec.getLsbD_and, BitVec.getLsbD_setWidth, BitVec.getLsbD_extractLsb']
  interval_cases i <;> simp_all

theorem encIdle : Statement .encIdle := ⟨_, rfl, rfl, encReq_fixed ..⟩
theorem encThrottle (addr : BitVec 14) (speed : BitVec 7) (fwd estop : Bool) :
    Statement (.encThrottle addr speed fwd estop) := ⟨_, rfl, rfl, encReq_fixed ..⟩
theorem encFg1 (addr : BitVec 14) (fbits : BitVec 5) : Statement (.encFg1 addr fbits) := ⟨_, rfl, rfl, encReq_fixed ..⟩
theorem encFg2l (addr : BitVec 14) (fbits : BitVec 5) : Statement (.encFg2l addr fbits) := ⟨_, rfl, rfl, encReq_fixed ..⟩
theorem encFg2h (addr : BitVec 14) (fbits : BitVec 5) : Statement (.encFg2h addr fbits) := ⟨_, rfl, rfl, encReq_fixed ..⟩
theorem pNop : Statement .pNop := ⟨_, rfl, rfl, preq_fixed ..⟩
theorem stageReset (slot : BitVec 8) : Statement (.stageReset slot) := ⟨_, rfl, rfl, preq_fixed ..⟩
theorem stageAppend (slot : BitVec 8) (n : BitVec 3) (b0 b1 b2 b3 b4 b5 : Byte) :
    Statement (.stageAppend slot n b0 b1 b2 b3 b4 b5) := ⟨_, rfl, rfl, preq_fixed ..⟩
theorem nextbit : Statement .nextbit := ⟨_, rfl, rfl, rfl⟩
theorem pktReset (slot : BitVec 8) (buf : BitVec 1) : Statement (.pktReset slot buf) := rfl
theorem pktAppend (slot : BitVec 8) (buf : BitVec 1) (cmd : List Byte) : Statement (.pktAppend slot buf cmd) := rfl
theorem pktGetbit (slot : BitVec 8) (buf : BitVec 1) (i : BitVec 8) : Statement (.pktGetbit slot buf i) := rfl
theorem pktLength (slot : BitVec 8) (buf : BitVec 1) : Statement (.pktLength slot buf) := rfl
theorem slotStage (slot : BitVec 8) : Statement (.slotStage slot) := rfl
theorem slotFlip (slot : BitVec 8) : Statement (.slotFlip slot) := rfl
theorem slotGetbit (slot i : BitVec 8) : Statement (.slotGetbit slot i) := rfl
theorem slotLength (slot : BitVec 8) : Statement (.slotLength slot) := rfl

end Sys2Proof.Laws.TableRow
end

