-- ==== Sys2Proof/Laws/Step.lean ====
section
/-! SUPPORT. Laws/Step: everything one step can do, said once, and what the invariants of 10_state.md section 8 need of it. -/

namespace Sys2Proof.Machine

/-- A step that serves a request decoded to an operation. -/
theorem serve_instr {w : PortWord} {i : Instr} (h : decode w = .instr i) (u : State) :
    serve (.port w) u = exec i u := by
  simp only [serve, servePort, h]

/-- The strobe is the only request that decodes to NEXTBIT. -/
theorem decode_nextbit {w : PortWord} (h : decode w = .instr .nextbit) : w = .nbReq := by
  cases w with
  | nbReq => rfl
  | encreq w =>
    simp only [decode, decodeEncReq] at h
    (repeat' split at h) <;> simp_all
  | preq w =>
    simp only [decode, decodePreq] at h
    (repeat' split at h) <;> simp_all

/-- What serving a request makes of a state `u`: only a response; a fault; reset; a new staging Packet of one Slot, emptied
or with one frame more; or NEXTBIT's move. -/
inductive Served (r : Request) (u t : State) : Prop where
  /-- An evaluation of the encoder, or P_NOP. -/
  | answered (a : Response) (h : a.faultCode = 0#3) (ht : t = u.respond a)
  /-- A fault (60_exceptions.md R106). -/
  | faulted (c : FaultCode) (a : Response) (hc : c ≠ .none) (h : a.faultCode = c.code) (ht : t = u.takeFault c a)
  /-- The reset input (70_reset_and_hazards.md R116). -/
  | wasReset (hr : r = .reset) (ht : t = u.resetInput)
  /-- STAGE_RESET (44_refresh.md R95). -/
  | emptied (i : BitVec 8) (sl : Slot) (hs : u.slot? i = some sl)
      (ht : t = (u.setSlot i (sl.setBuf sl.stg sl.staging.emptied)).respond (.pstat 0#3))
  /-- STAGE_APPEND (44_refresh.md R96). -/
  | appended (i : BitVec 8) (sl : Slot) (q : List Byte) (hs : u.slot? i = some sl) (hq : CmdWellFormed q = true)
      (hn : sl.staging.ncmd.toNat < 3) (hf : sl.staging.nbytes.toNat + frameLen q.length ≤ 30)
      (ht : t = (u.setSlot i (sl.setBuf sl.stg (sl.staging.appended q))).respond (.pstat 0#3))
  /-- NEXTBIT (44_refresh.md R89). -/
  | advanced (v : State) (b : Bool) (hr : r = .port .nbReq) (hn : nextbit u = .ok (v, b)) (ht : t = v.respond (.bit b))

/-- NEXTBIT's fault, in no state that meets the invariants, is never NONE. -/
theorem nextbit_error {u : State} {c : FaultCode} (h : nextbit u = .error c) : c ≠ .none := by
  rcases u.getSlot_cases u.curSlot with ⟨sl, -, hs, -, -⟩ | ⟨hg, -, -⟩
  · simp only [nextbit, slotGetbit_of_slot hs, Buffer.getBit] at h
    split at h
    · rename_i c' hc
      cases h
      split at hc <;> cases hc
      decide
    · simp only [advance, slotLength_of_slot hs] at h
      split at h
      · rename_i c' hc
        cases h
        split at hc
        · simp only [slotFlip, State.setCursor_getSlot] at hc
          rcases u.getSlot_cases (BitVec.ofNat 8 ((u.curSlot.toNat + 1) % u.nslots)) with ⟨_, hg, -⟩ | ⟨hg, -⟩ <;>
            rw [hg] at hc <;> cases hc
          decide
        · cases hc
      · cases h
  · simp only [nextbit, slotGetbit, hg] at h
    cases h
    decide

/-- Everything serving a request can do. -/
theorem serve_cases {r : Request} {u t : State} (h : serve r u = .next t) : Served r u t := by
  cases r with
  | reset => cases h; exact .wasReset rfl rfl
  | port w =>
    cases hd : decode w with
    | rejected e =>
      simp only [serve, servePort, hd] at h
      cases e <;> cases h
      · exact .answered _ rfl rfl
      · exact .faulted _ _ (by decide) rfl rfl
    | instr i =>
      rw [serve_instr hd] at h
      cases i with
      | encIdle => cases h; exact .answered _ rfl rfl
      | encThrottle addr speed fwd estop => cases h; exact .answered _ rfl rfl
      | encFg1 addr fbits => cases h; exact .answered _ rfl rfl
      | encFg2l addr fbits => cases h; exact .answered _ rfl rfl
      | encFg2h addr fbits => cases h; exact .answered _ rfl rfl
      | pNop => cases h; exact .answered _ rfl rfl
      | stageReset slot =>
        simp only [exec, execStageReset] at h
        rcases u.getSlot_cases slot with ⟨sl, -, hs, -, -⟩ | ⟨-, -, hl⟩
        · rw [stageReset_of_slot hs] at h
          cases h; exact .emptied slot sl hs rfl
        · simp only [stageReset, if_pos hl] at h
          cases h; exact .faulted .slotIndex _ (by decide) rfl rfl
      | stageAppend slot n b0 b1 b2 b3 b4 b5 =>
        simp only [exec, execStageAppend] at h
        rcases u.getSlot_cases slot with ⟨sl, -, hs, -, -⟩ | ⟨-, -, hl⟩
        · rw [stageAppend_of_slot hs] at h
          split at h
          · cases h; exact .faulted .cmdLen _ (by decide) rfl rfl
          · rcases sl.staging.append_cases (cmdBytes n b0 b1 b2 b3 b4 b5) with h' | h' | h' | h' <;>
              rw [h'.1] at h <;> cases h
            · exact .faulted .cmdLen _ (by decide) rfl rfl
            · exact .faulted .checksum _ (by decide) rfl rfl
            · exact .faulted .capacity _ (by decide) rfl rfl
            · exact .appended slot sl _ hs h'.2.1 h'.2.2.1 h'.2.2.2 rfl
        · simp only [stageAppend, if_pos hl] at h
          cases h; exact .faulted .slotIndex _ (by decide) rfl rfl
      | nextbit =>
        simp only [exec, execNextbit] at h
        cases hn : nextbit u with
        | error c => rw [hn] at h; cases h; exact .faulted c _ (nextbit_error hn) rfl rfl
        | ok vb => rw [hn] at h; cases h; exact .advanced vb.1 vb.2 (by rw [decode_nextbit hd]) hn rfl
      | pktReset | pktAppend | pktGetbit | pktLength | slotStage | slotFlip | slotGetbit | slotLength =>
        cases w <;> simp only [decode, decodeEncReq, decodePreq] at hd <;> (repeat' split at hd) <;> cases hd

/-! ### The invariants -/

/-- The invariants are about the Slots and the cursor alone. -/
theorem State.Inv.congr {s t : State} (h : s.Inv) (h1 : t.slots = s.slots) (h2 : t.curSlot = s.curSlot)
    (h3 : t.curBit = s.curBit) : t.Inv := by
  obtain ⟨a, b, c, d⟩ := h
  refine ⟨by simpa [State.nslots, h1] using a, by simpa [State.nslots, h1] using b, by simpa [h1] using c, ?_⟩
  simpa [State.slot?, h1, h2, h3] using d

theorem State.Inv.slotsLe256 {s : State} (h : s.Inv) : s.nslots ≤ 256 := h.slotsLe

theorem State.Inv.slot {s : State} (h : s.Inv) {i : BitVec 8} {sl : Slot} (hs : s.slot? i = some sl) : sl.WellFormed :=
  h.slots sl (List.mem_of_getElem? hs)

/-- A Slot replaced by a well-formed one leaves every Slot well formed. -/
theorem State.slots_setSlot {s : State} {i : BitVec 8} {sl : Slot} (h : ∀ x ∈ s.slots, x.WellFormed)
    (hs : sl.WellFormed) : ∀ x ∈ (s.setSlot i sl).slots, x.WellFormed := by
  intro x hx
  rcases List.mem_or_eq_of_mem_set hx with hx | rfl
  · exact h _ hx
  · exact hs

/-- A well-formed staging Packet put in place keeps the invariants: the cursor's Packet is an active one. -/
theorem State.Inv.setStaging {s : State} {i : BitVec 8} {sl : Slot} {b : Buffer} (h : s.Inv) (hs : s.slot? i = some sl)
    (hb : b.WellFormed) : (s.setSlot i (sl.setBuf sl.stg b)).Inv := by
  refine ⟨by simpa using h.slotsPos, by simpa using h.slotsLe,
    State.slots_setSlot h.slots (Slot.wellFormed_setStaging (h.slot hs) hb), ?_⟩
  obtain ⟨cl, hc, hlt⟩ := h.cursor
  by_cases he : i = s.curSlot
  · subst he
    rw [hs] at hc
    cases hc
    exact ⟨_, State.slot?_setSlot_same (State.slot?_lt hs), by simpa [Slot.setBuf_staging_active] using hlt⟩
  · exact ⟨cl, by rw [State.setSlot_curSlot, State.slot?_setSlot_other he]; exact hc, by simpa using hlt⟩

/-- A well-formed Slot's active Packet has a bit to read (10_state.md R30). -/
theorem Slot.WellFormed.active_pos {sl : Slot} (h : sl.WellFormed) : 0 < sl.active.lenbits := by
  have hr := Buffer.nbytes_range (h.buf sl.act)
  have h1 := h.activeNonempty
  simp only [Slot.active] at h1 ⊢
  simp only [Buffer.lenbits]
  omega

/-- NEXTBIT's move keeps the invariants (10_state.md R31). -/
theorem State.Inv.advanced {s t : State} {b : Bool} (h : s.Inv) (hn : nextbit s = .ok (t, b)) : t.Inv := by
  obtain ⟨sl, hs, -, -, ⟨hi, rfl⟩ | ⟨-, sl2, h2, rfl⟩⟩ := nextbit_cases h.slotsLe256 hn
  · refine ⟨h.slotsPos, h.slotsLe, h.slots, sl, by simpa using hs, ?_⟩
    have := sl.active.lenbits_lt
    simp only [State.setCursor_curBit, BitVec.toNat_ofNat]
    omega
  · have he := State.entered_lt h.slotsPos h.slotsLe256
    have hw := Slot.wellFormed_flipped (h.slots sl2 (List.mem_of_getElem? h2))
    exact ⟨by simpa using h.slotsPos, by simpa using h.slotsLe, State.slots_setSlot h.slots hw, sl2.flipped,
      State.slot?_setSlot_same (by rw [he.1]; exact he.2), by simpa using hw.active_pos⟩

/-- A Slot after reset is well formed (70_reset_and_hazards.md R115). -/
theorem Slot.wellFormed_reset : Slot.reset.WellFormed where
  buf0 := ⟨by decide, [[0xFF#8, 0x00#8, 0xFF#8]], rfl, by decide, by decide⟩
  buf1 := ⟨by decide, [], rfl, by simp, by decide⟩
  activeNonempty := by decide

end Sys2Proof.Machine
end

