-- ==== Sys2Proof/Tests/Slice0.lean ====
section
/-! SUPPORT. Tests/Slice0: checks against the spec's own encodings and vectors (30_encoding.md; 95_test_vectors.md), the ill-formed
operand of each WellFormed check, and for each obligation with hypotheses a concrete state and operands that meet them. -/

namespace Sys2Proof.Tests

open Sys2Proof Sys2Proof.Machine

/-! ### Decoding: words written out bit by bit from 30_encoding.md R47, R49, R50 -/

/-- `0 00000 0 0 0000000 00000000000000 000`. -/
theorem test_decode_encIdle : decode (.encreq 0b00000000000000000000000000000000#32) = .instr .encIdle := by decide

/-- `0 00000 E=0 D=1 S=0111111 A=00000000000011 001`, V-E2. -/
theorem test_decode_encThrottle :
    decode (.encreq 0b00000001011111100000000000011001#32) = .instr (.encThrottle 3#14 63#7 true false) := by decide

/-- `0 F=10001 00 0000000 A=00000000000011 010`, V-E13. -/
theorem test_decode_encFg1 :
    decode (.encreq 0b01000100000000000000000000011010#32) = .instr (.encFg1 3#14 0b10001#5) := by decide

/-- `0 F=01111 00 0000000 A=00000000000011 011`, V-E18. -/
theorem test_decode_encFg2l :
    decode (.encreq 0b00111100000000000000000000011011#32) = .instr (.encFg2l 3#14 0b01111#5) := by decide

/-- `0 F=01111 00 0000000 A=10011100001111 100`, V-E21. -/
theorem test_decode_encFg2h :
    decode (.encreq 0b00111100000000010011100001111100#32) = .instr (.encFg2h 9999#14 0b01111#5) := by decide

/-- Bytes, slot and n ignored (R49): op 00, rsv 000, all ignored bits 1. -/
theorem test_decode_pNop :
    decode (.preq 0b1111111111111111111111111111111111111111111111111111111100011100#64) = .instr .pNop := by decide

/-- `slot=00000001 000 nnn 01`, V-P3. -/
theorem test_decode_stageReset :
    decode (.preq 0b0000000000000000000000000000000000000000000000000000000100000001#64) =
      .instr (.stageReset 1#8) := by decide

/-- `b3=FC b2=C0 b1=3F b0=03 slot=00000001 000 n=100 10`, V-P4. -/
theorem test_decode_stageAppend :
    decode (.preq 0b0000000000000000111111001100000000111111000000110000000100010010#64) =
      .instr (.stageAppend 1#8 4#3 0x03#8 0x3F#8 0xC0#8 0xFC#8 0x00#8 0x00#8) := by decide

theorem test_decode_nextbit : decode .nbReq = .instr .nextbit := by decide

/-- V-R9, V-R10, V-R11. -/
theorem test_decode_reserved_encreq :
    decode (.encreq 0x0000001D#32) = .rejected .reservedEncReq ∧
    decode (.encreq 0x00000007#32) = .rejected .reservedEncReq ∧
    decode (.encreq 0x80000000#32) = .rejected .reservedEncReq := by decide

/-- V-P6, V-P7. -/
theorem test_decode_reserved_preq :
    decode (.preq 0x0000000000000003#64) = .rejected .reservedOp ∧
    decode (.preq 0x0000000000000020#64) = .rejected .reservedOp := by decide

/-- The internal operations have no word (30_encoding.md, operation map). -/
theorem test_encode_internal :
    [Instr.pktReset 0#8 1#1, .pktAppend 0#8 1#1 [], .pktGetbit 0#8 0#1 0#8, .pktLength 0#8 0#1, .slotStage 0#8,
      .slotFlip 0#8, .slotGetbit 0#8 0#8, .slotLength 0#8].map encode = List.replicate 8 none := by decide

/-- V-E8 and V-P4, encoded. -/
theorem test_encode_words :
    encode (.encThrottle 128#14 126#7 true false) = some (.encreq 0x01FC0401#32) ∧
    encode (.stageAppend 1#8 4#3 0x03#8 0x3F#8 0xC0#8 0xFC#8 0x00#8 0x00#8) =
      some (.preq 0x0000FCC03F030112#64) := by decide

/-- The table's words by width: V-E2, V-P3, the strobe, and a strobe that is 0. -/
theorem test_decodeTableWord :
    decodeTableWord 32 0x017E0019 = some (.encThrottle 3#14 63#7 true false) ∧
    decodeTableWord 64 0x101 = some (.stageReset 1#8) ∧
    decodeTableWord 8 1 = some .nextbit ∧ decodeTableWord 8 0 = none := by decide

/-! ### WellFormed: an ill-formed operand for each check, and the greatest legal one -/

theorem test_wellFormed_throttle :
    (Instr.encThrottle 0#14 0#7 true false).wellFormed 2 = false ∧
    (Instr.encThrottle 10000#14 0#7 true false).wellFormed 2 = false ∧
    (Instr.encThrottle 9999#14 127#7 true false).wellFormed 2 = false ∧
    (Instr.encThrottle 9999#14 126#7 true false).wellFormed 2 = true := by decide

theorem test_wellFormed_functions :
    (Instr.encFg1 0#14 31#5).wellFormed 2 = false ∧ (Instr.encFg1 1#14 31#5).wellFormed 2 = true ∧
    (Instr.encFg2l 0#14 15#5).wellFormed 2 = false ∧ (Instr.encFg2l 3#14 16#5).wellFormed 2 = false ∧
    (Instr.encFg2h 10000#14 15#5).wellFormed 2 = false ∧ (Instr.encFg2h 3#14 16#5).wellFormed 2 = false := by decide

theorem test_wellFormed_producer :
    (Instr.stageReset 2#8).wellFormed 2 = false ∧
    (Instr.stageAppend 2#8 3#3 0xFF#8 0x00#8 0xFF#8 0#8 0#8 0#8).wellFormed 2 = false ∧
    (Instr.stageAppend 1#8 2#3 0xFF#8 0xFF#8 0x00#8 0#8 0#8 0#8).wellFormed 2 = false ∧
    (Instr.stageAppend 1#8 7#3 0#8 0#8 0#8 0#8 0#8 0#8).wellFormed 2 = false ∧
    (Instr.stageAppend 1#8 3#3 0xFF#8 0x00#8 0xFE#8 0#8 0#8 0#8).wellFormed 2 = false ∧
    (Instr.stageAppend 1#8 3#3 0xFF#8 0x00#8 0xFF#8 0#8 0#8 0#8).wellFormed 2 = true := by decide

theorem test_wellFormed_internal :
    (Instr.pktReset 2#8 0#1).wellFormed 2 = false ∧ (Instr.pktAppend 2#8 0#1 [1#8, 0#8, 1#8]).wellFormed 2 = false ∧
    (Instr.pktAppend 0#8 0#1 [1#8, 1#8]).wellFormed 2 = false ∧
    (Instr.pktAppend 0#8 0#1 [0#8, 0#8, 0#8, 0#8, 0#8, 0#8, 0#8]).wellFormed 2 = false ∧
    (Instr.pktGetbit 2#8 0#1 0#8).wellFormed 2 = false ∧ (Instr.pktGetbit 0#8 0#1 240#8).wellFormed 2 = false ∧
    (Instr.pktLength 2#8 0#1).wellFormed 2 = false ∧ (Instr.slotStage 2#8).wellFormed 2 = false ∧
    (Instr.slotFlip 2#8).wellFormed 2 = false ∧ (Instr.slotGetbit 2#8 0#8).wellFormed 2 = false ∧
    (Instr.slotGetbit 0#8 240#8).wellFormed 2 = false ∧ (Instr.slotLength 2#8).wellFormed 2 = false := by decide

/-! ### Frames (95_test_vectors.md, V-F1 to V-F5) -/

theorem test_frames :
    frame [0xFF#8, 0x00#8, 0xFF#8] = [0xFF#8, 0xFF#8, 0xFD#8, 0xFE#8, 0x00#8, 0x7F#8, 0xFF#8] ∧
    frame [0x03#8, 0x3F#8, 0xC0#8, 0xFC#8] = [0xFF#8, 0xFF#8, 0xFC#8, 0x06#8, 0x3F#8, 0x60#8, 0x3F#8, 0x3F#8] ∧
    frame [0xC3#8, 0xE7#8, 0x3F#8, 0x00#8, 0x1B#8] =
      [0xFF#8, 0xFF#8, 0xFD#8, 0x86#8, 0xE7#8, 0x1F#8, 0x80#8, 0x03#8, 0x7F#8] ∧
    frame [0x01#8, 0x02#8, 0x04#8, 0x08#8, 0x10#8, 0x1F#8] =
      [0xFF#8, 0xFF#8, 0xFC#8, 0x02#8, 0x02#8, 0x02#8, 0x02#8, 0x02#8, 0x01#8, 0xFF#8] := by decide

/-- V-F1 read by the wire format. -/
theorem test_deframe :
    deframe (bitsOf [0xFF#8, 0xFF#8, 0xFD#8, 0xFE#8, 0x00#8, 0x7F#8, 0xFF#8]) = [(22, [0xFF#8, 0x00#8, 0xFF#8])] := by
  decide

/-! ### One step of each operation -/

/-- The state after one step. -/
def after (s : State) : Option State := nextState (step s)

/-- What the next step of the reset block returns, served the request of a table word. -/
def answer (nbits w : Nat) : Option Response := (after (State.reset.withFetchWord nbits w)).map (·.resp)

/-- V-E1, and V-E1 with every ignored field set. -/
theorem test_encIdle :
    answer 32 0x00000000 = some (.encrsp 0x000000FF00FF18#56) ∧
    answer 32 0x7FFFFFF8 = some (.encrsp 0x000000FF00FF18#56) := by decide

/-- V-E2, V-E8, V-E12. -/
theorem test_encThrottle :
    answer 32 0x017E0019 = some (.encrsp 0x0000FCC03F0320#56) ∧
    answer 32 0x01FC0401 = some (.encrsp 0x0080FF3F80C028#56) ∧
    answer 32 0x02000019 = some (.encrsp 0x00003D013F0320#56) := by decide

/-- V-E11 with `ESTOP_DIR_BIT = true`: `03 3F 81 BD`; and V-R6, V-R5. -/
theorem test_encThrottle_corners :
    ((nextState (exec (.encThrottle 3#14 63#7 true true)
      { State.reset with params := { Config.defaultParams with estopDirBit := true } })).map (·.resp)) =
      some (.encrsp 0x0000BD813F0320#56) ∧
    answer 32 0x01FE0001 = some (.encrsp 1#56) ∧ answer 32 0x03FE0019 = some (.encrsp 2#56) := by decide

/-- V-E13 with the ignored fields set, V-E17, V-R3. -/
theorem test_encFg1 :
    answer 32 0x47C8001A = some (.encrsp 0x00000092910318#56) ∧
    answer 32 0x40001F42 = some (.encrsp 0x0000BB90E8C320#56) ∧ answer 32 0x0001FFFA = some (.encrsp 1#56) := by decide

/-- V-E18, V-R7. -/
theorem test_encFg2l :
    answer 32 0x3C00001B = some (.encrsp 0x000000BCBF0318#56) ∧ answer 32 0x4000001B = some (.encrsp 3#56) := by decide

/-- V-E21, V-R8. -/
theorem test_encFg2h :
    answer 32 0x3C01387C = some (.encrsp 0x000047AF0FE720#56) ∧ answer 32 0x40000004 = some (.encrsp 1#56) := by decide

/-- V-R11: a reserved request is answered, not stopped. -/
theorem test_reserved_encreq : answer 32 0x80000000 = some (.encrsp 4#56) := by decide

/-- V-P1: P_NOP leaves the reset state as it was. -/
theorem test_pNop : after (State.reset.withFetchWord 64 0) = some { State.reset with resp := .pstat 0#3 } := by decide

/-- V-P6: a reserved request. -/
theorem test_reserved_preq : after (State.reset.withFetchWord 64 3) =
    some { State.reset with fault := .reservedOp, resp := .pstat 1#3 } := by decide

/-- A Slot that stages the throttle command of V-P4. -/
def stagedSlot : Slot :=
  { Slot.reset with buf1 :=
    { mem := [(0, 0xFF#8), (1, 0xFF#8), (2, 0xFC#8), (3, 0x06#8), (4, 0x3F#8), (5, 0x60#8), (6, 0x3F#8), (7, 0x3F#8)]
      nbytes := 8#5, ncmd := 1#2 } }

/-- The reset block with that Slot 1. -/
def staged : State := { State.reset with slots := [Slot.reset, stagedSlot] }

/-- V-PK3: the counts go, the bytes stay. -/
theorem test_stageReset : after (staged.withFetchWord 64 0x101) =
    some { staged with
      slots := [Slot.reset, { stagedSlot with buf1 := { stagedSlot.buf1 with nbytes := 0#5, ncmd := 0#2 } }]
      resp := .pstat 0#3 } := by decide

/-- V-P9. -/
theorem test_stageReset_absent : after (State.reset.withFetchWord 64 0x201) =
    some { State.reset with fault := .slotIndex, resp := .pstat 2#3 } := by decide

/-- V-P4. -/
theorem test_stageAppend : after (State.reset.withFetchWord 64 0x0000FCC03F030112) =
    some { staged with resp := .pstat 0#3 } := by decide

/-- V-P8, V-P13, V-P10, V-P14, V-P12. -/
theorem test_stageAppend_faults :
    answer 64 0x000000FF00FF050E = some (.pstat 2#3) ∧ answer 64 0x000000000101050A = some (.pstat 2#3) ∧
    answer 64 0x00000000FFFF000A = some (.pstat 3#3) ∧ answer 64 0x000000000201000A = some (.pstat 3#3) ∧
    answer 64 0x0000FDC03F030012 = some (.pstat 4#3) := by decide

/-- V-N1. -/
theorem test_nextbit : after (State.reset.withFetchWord 8 1) =
    some { State.reset with curBit := 1#8, resp := .bit true } := by decide

/-- The Slot of V-SL2: flipped to the throttle command. -/
def flippedSlot : Slot := { stagedSlot with act := 1#1, buf0 := { Slot.reset.buf0 with nbytes := 0#5, ncmd := 0#2 } }

/-- V-N6: the last bit of slot 0's Packet enters slot 1 and flips it in the same step. -/
theorem test_nextbit_boundary : after ({ staged with curBit := 55#8 }.withFetchWord 8 1) =
    some { staged with slots := [Slot.reset, flippedSlot], curSlot := 1#8, resp := .bit true } := by decide

/-- V-PK3, V-PK4. -/
theorem test_pktReset :
    nextState (exec (.pktReset 1#8 1#1) staged) =
      some { staged with
        slots := [Slot.reset, { stagedSlot with buf1 := { stagedSlot.buf1 with nbytes := 0#5, ncmd := 0#2 } }]
        resp := .done } ∧
    nextState (exec (.pktReset 1#8 1#1) State.reset) = some { State.reset with resp := .done } := by decide

/-- V-PK1. -/
theorem test_pktAppend : nextState (exec (.pktAppend 1#8 1#1 [0x03#8, 0x3F#8, 0xC0#8, 0xFC#8]) State.reset) =
    some { staged with resp := .done } := by decide

/-- A Slot that stages three six-byte commands: 30 bytes (V-PK8). -/
def fullSlot : Slot := { Slot.reset with buf1 := { mem := [], nbytes := 30#5, ncmd := 3#2 } }

/-- V-PK8: a fourth append. -/
theorem test_pktAppend_full : nextState (exec (.pktAppend 0#8 1#1 [0xFF#8, 0x00#8, 0xFF#8])
    { State.reset with slots := [fullSlot] }) =
      some { State.reset with slots := [fullSlot], fault := .capacity, resp := .raised .capacity } := by decide

/-- V-PK5, V-PK7, V-PK6. -/
theorem test_pktGetbit :
    ([22#8, 31#8, 40#8, 49#8, 55#8, 56#8].map fun k =>
      (nextState (exec (.pktGetbit 0#8 0#1 k) State.reset)).map (·.resp)) =
    [some (.bit false), some (.bit false), some (.bit false), some (.bit true), some (.bit true),
      some (.raised .getbitRange)] := by decide

/-- V-PK10. -/
theorem test_pktLength :
    ([(0#1, State.reset), (1#1, State.reset), (1#1, staged)].map fun (p, s) =>
      (nextState (exec (.pktLength 1#8 p) s)).map (·.resp)) =
    [some (.length 56#8), some (.length 0#8), some (.length 64#8)] := by decide

/-- V-SL4. -/
theorem test_slotStage :
    ([Slot.reset, flippedSlot].map fun sl =>
      (nextState (exec (.slotStage 0#8) { State.reset with slots := [sl] })).map (·.resp)) =
    [some (.index 1#1), some (.index 0#1)] := by decide

/-- V-SL2. -/
theorem test_slotFlip : nextState (exec (.slotFlip 1#8) staged) =
    some { staged with slots := [Slot.reset, flippedSlot], resp := .done } := by decide

/-- V-SL1, V-SL3. -/
theorem test_slotFlip_empty :
    nextState (exec (.slotFlip 1#8) State.reset) = some { State.reset with resp := .done } ∧
    nextState (exec (.slotFlip 1#8) { staged with slots := [Slot.reset, flippedSlot] }) =
      some { staged with slots := [Slot.reset, flippedSlot], resp := .done } := by decide

/-- V-SL5, and V-SL2's active length. -/
theorem test_slotGetbit_slotLength :
    (nextState (exec (.slotGetbit 1#8 0#8) State.reset)).map (·.resp) = some (.bit true) ∧
    (nextState (exec (.slotLength 1#8) State.reset)).map (·.resp) = some (.length 56#8) ∧
    (nextState (exec (.slotLength 0#8) { State.reset with slots := [flippedSlot] })).map (·.resp) =
      some (.length 64#8) := by decide

/-- An internal operation at a slot that does not exist (20_memory.md R33). -/
theorem test_internal_absent : nextState (exec (.slotLength 2#8) State.reset) =
    some { State.reset with fault := .slotIndex, resp := .raised .slotIndex } := by decide

/-- The reset input (70_reset_and_hazards.md R116) over staged content, a moved cursor and a recorded fault. -/
theorem test_resetInput : after { staged with curBit := 9#8, fault := .checksum, pending := [.reset] } =
    some State.reset := by decide

/-- 30_encoding.md R49, R65: `APPEND 1, THROTTLE 3, 63, FWD` issues V-P4's word; `THROTTLE 10000, 10, FWD` issues none. -/
theorem test_appendPseudo :
    (Line.append 1#8 (.throttle 3#14 63#7 true false)).words Config.defaultParams = [.preq 0x0000FCC03F030112#64] ∧
    (Line.append 0#8 (.throttle 10000#14 10#7 true false)).words Config.defaultParams = [] ∧
    (Line.append 0#8 (.throttle 10000#14 10#7 true false)).rejections Config.defaultParams = [.addrRange] := by decide

/-- 30_encoding.md R64, R65: the `ENCREQ` of V-E1, V-E2, V-E17, V-E18 and V-E21. -/
theorem test_requestWords :
    [Cmd.idle, .throttle 3#14 63#7 true false, .fg1 1000#14 0b10000#5, .fg2l 3#14 0b1111#4, .fg2h 9999#14 0b1111#4].map
      Cmd.request = [0x00000000#32, 0x017E0019#32, 0x40001F42#32, 0x3C00001B#32, 0x3C01387C#32] := by decide

/-! ### Concrete states that meet the invariants -/

theorem reset_inv : State.reset.Inv where
  slotsPos := by decide
  slotsLe := by decide
  slots := by
    intro sl hs
    rw [List.eq_of_mem_replicate hs]
    exact Slot.wellFormed_reset
  cursor := ⟨Slot.reset, rfl, by decide⟩

/-- The Slots of every memory at reset are in canonical form. -/
theorem reset_canonical : ∀ sl ∈ State.reset.slots, sl.buf0.mem.wf = true ∧ sl.buf1.mem.wf = true := by decide

theorem stagedSlot_wf : stagedSlot.WellFormed where
  buf0 := Slot.wellFormed_reset.buf0
  buf1 := ⟨by decide, [[0x03#8, 0x3F#8, 0xC0#8, 0xFC#8]], rfl, by decide, by decide⟩
  activeNonempty := by decide

theorem staged_inv : staged.Inv where
  slotsPos := by decide
  slotsLe := by decide
  slots := by
    intro sl hs
    rcases List.mem_pair.1 hs with rfl | rfl
    · exact Slot.wellFormed_reset
    · exact stagedSlot_wf
  cursor := ⟨Slot.reset, rfl, by decide⟩

theorem reset_atReset : State.reset.AtReset where
  slots := by
    intro sl hs
    rw [List.eq_of_mem_replicate hs]
    exact ⟨rfl, rfl, rfl, by decide, rfl, rfl⟩
  curSlot := rfl
  curBit := rfl
  fault := rfl

/-! ### Witnesses: for each obligation with hypotheses, a state and operands that meet them together; for one with several
clauses, each clause at a boundary of its range -/

theorem witness_EncIdleReturnsIdleCommand :
    (0x7FFFFFF8#32).getLsbD 31 = false ∧ (0x7FFFFFF8#32).extractLsb' 0 3 = 0#3 := by decide

theorem witness_EncThrottleReturnsThrottleCommand :
    ((0x017E0019#32).getLsbD 31 = false ∧ (0x017E0019#32).extractLsb' 0 3 = 1#3) ∧
    ((0#14).toNat < 1 ∨ 9999 < (0#14).toNat) ∧ ((10000#14).toNat < 1 ∨ 9999 < (10000#14).toNat) ∧
    (1 ≤ (9999#14).toNat ∧ (9999#14).toNat ≤ 9999 ∧ 126 < (127#7).toNat) ∧
    (1 ≤ (1#14).toNat ∧ (1#14).toNat ≤ 9999 ∧ (126#7).toNat ≤ 126) := by decide

theorem witness_EncFg1ReturnsFunctionGroup1 :
    ((0x4400001A#32).getLsbD 31 = false ∧ (0x4400001A#32).extractLsb' 0 3 = 2#3) ∧
    ((10000#14).toNat < 1 ∨ 9999 < (10000#14).toNat) ∧ (1 ≤ (9999#14).toNat ∧ (9999#14).toNat ≤ 9999) := by decide

theorem witness_EncFg2lReturnsFunctionGroup2Low :
    ((0x3C00001B#32).getLsbD 31 = false ∧ (0x3C00001B#32).extractLsb' 0 3 = 3#3) ∧
    ((0#14).toNat < 1 ∨ 9999 < (0#14).toNat) ∧
    (1 ≤ (1#14).toNat ∧ (1#14).toNat ≤ 9999 ∧ 16 ≤ (16#5).toNat) ∧
    (1 ≤ (9999#14).toNat ∧ (9999#14).toNat ≤ 9999 ∧ (15#5).toNat < 16) := by decide

theorem witness_EncFg2hReturnsFunctionGroup2High :
    ((0x2800001C#32).getLsbD 31 = false ∧ (0x2800001C#32).extractLsb' 0 3 = 4#3) ∧
    ((0#14).toNat < 1 ∨ 9999 < (0#14).toNat) ∧
    (1 ≤ (1#14).toNat ∧ (1#14).toNat ≤ 9999 ∧ 16 ≤ (16#5).toNat) ∧
    (1 ≤ (9999#14).toNat ∧ (9999#14).toNat ≤ 9999 ∧ (15#5).toNat < 16) := by decide

theorem witness_EncoderWritesNoState :
    portOf (.encThrottle 3#14 63#7 true false) = .encoder ∧ staged.params = State.reset.params := by decide

theorem witness_EncoderStatusAndPriority : rspStatus (EncResult.err .addrRange).word ≠ 0#3 := by decide

theorem witness_EncoderCommandsAreWellFormed :
    portOf .encIdle = .encoder ∧
    ∃ t r, exec .encIdle State.reset = .next t ∧ t.resp = .encrsp r ∧ rspStatus r = 0#3 :=
  ⟨rfl, _, _, rfl, rfl, by decide⟩

theorem witness_EncodedCommandDeterminesItsFields :
    (1 ≤ (1#14).toNat ∧ (1#14).toNat ≤ 9999 ∧ (126#7).toNat ≤ 126 ∧
      exec (.encThrottle 1#14 126#7 true false) State.reset = exec (.encThrottle 1#14 126#7 true false) State.reset) ∧
    ((63#7).toNat ≤ 126 ∧ (0#7).toNat ≤ 126 ∧
      exec (.encThrottle 3#14 63#7 true true) State.reset = exec (.encThrottle 3#14 0#7 false true) State.reset) ∧
    ({ State.reset with params := { Config.defaultParams with estopDirBit := true } }.params.estopDirBit = true) ∧
    (1 ≤ (9999#14).toNat ∧ (9999#14).toNat ≤ 9999 ∧
      exec (.encFg1 9999#14 31#5) State.reset = exec (.encFg1 9999#14 31#5) State.reset) ∧
    ((15#5).toNat < 16 ∧ State.reset.params.fg2lPrefix.extractLsb' 0 4 = 0#4 ∧
      exec (.encFg2l 9999#14 15#5) State.reset = exec (.encFg2l 9999#14 15#5) State.reset) ∧
    (State.reset.params.fg2hPrefix.extractLsb' 0 4 = 0#4 ∧
      exec (.encFg2h 1#14 15#5) State.reset = exec (.encFg2h 1#14 15#5) State.reset) ∧
    (encode .encIdle = some (.encreq 0#32) ∧ Instr.encIdle.wellFormed State.reset.nslots = true ∧
      State.reset.params.fg2lPrefix = 0xB0#8 ∧ State.reset.params.fg2hPrefix = 0xA0#8) :=
  ⟨⟨by decide, by decide, by decide, rfl⟩, ⟨by decide, by decide, rfl⟩, rfl, ⟨by decide, by decide, rfl⟩,
    ⟨by decide, by decide, rfl⟩, ⟨by decide, rfl⟩, by decide⟩

theorem witness_DecodeOfEncodeIsTheOperation :
    encode (.encThrottle 3#14 63#7 true false) = some (.encreq 0x017E0019#32) := by decide

theorem witness_EncodeOfDecodeKeepsUsedBits :
    decode (.encreq 0x47C8001A#32) = .instr (.encFg1 3#14 0b10001#5) ∧
    decode (.preq 0xFF0000000000011D#64) = .instr (.stageReset 1#8) := by decide

theorem witness_ExactlyReservedWordsAreRejected :
    decode (.encreq 5#32) = .rejected .reservedEncReq ∧ decode (.preq 0x20#64) = .rejected .reservedOp := by decide

theorem witness_EachPortSelectsItsOwnOperations :
    decode (.encreq 0#32) = .instr .encIdle ∧ decode (.preq 0#64) = .instr .pNop := by decide

theorem witness_StepRunsTheDecodedOperation :
    (State.reset.withFetchWord 8 1).pending = .port .nbReq :: [] ∧ decode .nbReq = .instr .nextbit := by decide

theorem witness_IdleStepIsNop : State.reset.pending = [] := by decide

theorem witness_StepKeepsTheConfiguration : ∃ t, step State.reset = .next t := ⟨_, rfl⟩

theorem witness_StepKeepsInvariants : State.reset.Inv ∧ ∃ t, step State.reset = .next t := ⟨reset_inv, _, rfl⟩

theorem witness_ResetMeetsInvariants : 1 ≤ 1 ∧ 1 ≤ 256 ∧ 1 ≤ 256 ∧ 256 ≤ 256 := by decide

/-- A Slot after reset with another value in a byte that is no content. -/
def otherBytes : Slot := { Slot.reset with buf1 := { Slot.reset.buf1 with mem := [(29, 0x55#8)] } }

theorem witness_BytesBeyondTheContentAreNeverObserved :
    State.reset.Agrees { State.reset with slots := [otherBytes, Slot.reset] } ∧ ∃ t, step State.reset = .next t := by
  have h0 : Slot.reset.buf0.Agrees Slot.reset.buf0 := ⟨by decide, by decide, rfl, rfl, rfl⟩
  have h1 : Slot.reset.buf1.Agrees Slot.reset.buf1 := ⟨by decide, by decide, rfl, rfl, rfl⟩
  have h : Slot.reset.Agrees otherBytes := ⟨rfl, h0, by decide, by decide, rfl, rfl, rfl⟩
  exact ⟨⟨.cons h (.cons ⟨rfl, h0, h1⟩ .nil), rfl, rfl, rfl, rfl, rfl⟩, _, rfl⟩

theorem witness_ActivePacketIsNeverEmpty : State.reset.Inv ∧ Slot.reset ∈ State.reset.slots := ⟨reset_inv, by decide⟩

theorem witness_FaultWritesOnlyTheFaultRegister :
    (∃ t, exec (.stageReset 2#8) State.reset = .next t ∧ t.resp.faultCode ≠ 0#3) ∧ State.reset.fault = .none ∧
    (∃ t, exec (.stageReset 2#8) { State.reset with fault := .checksum } = .next t ∧ t.resp.faultCode ≠ 0#3) :=
  ⟨⟨_, rfl, by decide⟩, rfl, _, rfl, by decide⟩

theorem witness_FaultRegisterKeepsTheFirstFault :
    (State.reset.pending.head? ≠ some .reset ∧ State.reset.fault = .none ∧ ∃ t, step State.reset = .next t) ∧
    ({ staged with fault := .checksum }.pending.head? ≠ some .reset ∧ ∃ t, step { staged with fault := .checksum } = .next t) :=
  ⟨⟨by decide, rfl, _, rfl⟩, by decide, _, rfl⟩

theorem witness_FaultFreeEndMeansNoFault :
    ∃ rs t, observe 2 (State.reset.withFetchWord 8 1) = some (rs, t) ∧
      Request.reset ∉ (State.reset.withFetchWord 8 1).pending.take 2 ∧ t.faultFree :=
  ⟨_, _, rfl, by decide, rfl⟩

theorem witness_ProducerStatusAndPriority :
    (0x0000FCC03F030112#64).extractLsb' 0 2 = 2#2 ∧ ((0x0000FCC03F030112#64).extractLsb' 2 3).toNat = 4 ∧
    ((0x0000FCC03F030112#64).extractLsb' 8 8).toNat = 1 ∧ (0x0000FCC03F030112#64).extractLsb' 16 8 = 0x03#8 := by decide

theorem witness_ReservedProducerWordFaults :
    ((3#64).extractLsb' 0 2 = 3#2 ∨ (3#64).extractLsb' 5 3 ≠ 0#3) ∧
    ((0x20#64).extractLsb' 0 2 = 3#2 ∨ (0x20#64).extractLsb' 5 3 ≠ 0#3) := by decide

theorem witness_PNopChangesNothing :
    (0xFFFFFFFFFFFFFF1C#64).extractLsb' 5 3 = 0#3 ∧ (0xFFFFFFFFFFFFFF1C#64).extractLsb' 0 2 = 0#2 := by decide

theorem witness_StageResetEmptiesStaging :
    ((0x101#64).extractLsb' 5 3 = 0#3 ∧ (0x101#64).extractLsb' 0 2 = 1#2) ∧
    State.reset.slots.length ≤ (2#8).toNat ∧ staged.slots[(1#8).toNat]? = some stagedSlot := by decide

theorem witness_StageAppendWritesTheFrame :
    ((0x0000FCC03F030112#64).extractLsb' 5 3 = 0#3 ∧ (0x0000FCC03F030112#64).extractLsb' 0 2 = 2#2) ∧
    staged.slots[(1#8).toNat]? = some stagedSlot ∧ stagedSlot.staging.mem.wf = true ∧
    [0x03#8, 0x91#8, 0x92#8] = [0x03#8, 0x91#8, 0x92#8, 0#8, 0#8, 0#8].take (3#3).toNat ∧ 3 ≤ (3#3).toNat ∧
    (3#3).toNat ≤ 6 ∧ [0x03#8, 0x91#8, 0x92#8].foldl (· ^^^ ·) 0#8 = 0#8 ∧ stagedSlot.staging.ncmd.toNat < 3 ∧
    stagedSlot.staging.nbytes.toNat + (22 + 9 * (3#3).toNat + 7) / 8 ≤ 30 := by decide

theorem witness_StageAppendFaultsWriteNothing :
    State.reset.slots.length ≤ (2#8).toNat ∧ State.reset.slots[(0#8).toNat]? = some Slot.reset ∧
    ((2#3).toNat < 3 ∨ 6 < (2#3).toNat) ∧ ((7#3).toNat < 3 ∨ 6 < (7#3).toNat) ∧
    (3 ≤ (3#3).toNat ∧ (6#3).toNat ≤ 6 ∧
      ([1#8, 2#8, 4#8, 0#8, 0#8, 0#8].take (3#3).toNat).foldl (· ^^^ ·) 0#8 ≠ 0#8) ∧
    (([0xFF#8, 0#8, 0xFF#8, 0#8, 0#8, 0#8].take (3#3).toNat).foldl (· ^^^ ·) 0#8 = 0#8 ∧
      { State.reset with slots := [fullSlot] }.slots[(0#8).toNat]? = some fullSlot ∧
      (fullSlot.staging.ncmd.toNat = 3 ∨
        30 < fullSlot.staging.nbytes.toNat + (22 + 9 * (3#3).toNat + 7) / 8)) := by decide

theorem witness_ThreeCommandsAlwaysFit :
    staged.Inv ∧ staged.slots[(1#8).toNat]? = some stagedSlot ∧ stagedSlot.staging.ncmd.toNat ≤ 2 ∧
    CmdWellFormed (cmdBytes 6#3 0xC0#8 0x80#8 0x3F#8 0xFF#8 0x80#8 0x00#8) = true ∧ (6#3).toNat ≤ 6 :=
  ⟨staged_inv, by decide⟩

theorem witness_PseudoInstructionsIssueTheirRequests :
    encodeRequest Config.defaultParams Cmd.idle.request = .ok [0xFF#8, 0x00#8, 0xFF#8] ∧
    encodeRequest Config.defaultParams (Cmd.fg1 0#14 0#5).request = .err .addrRange := by decide

theorem witness_FrameBitPositions :
    3 ≤ [1#8, 2#8, 3#8].length ∧ [1#8, 2#8, 3#8].length ≤ 6 ∧ [1#8, 2#8, 3#8][2]? = some 3#8 ∧ 7 < 8 ∧
    22 + 9 * 3 ≤ 55 ∧ 55 < 8 * ((22 + 9 * 3 + 7) / 8) := by decide

theorem witness_DeframingFramesGivesTheCommands :
    ∀ c ∈ [[0xFF#8, 0x00#8, 0xFF#8], [1#8, 2#8, 4#8, 8#8, 16#8, 31#8]], CmdWellFormed c = true := by decide

theorem witness_NextbitReturnsBitAndAdvances :
    staged.slots.length ≤ 256 ∧ staged.slots[staged.curSlot.toNat]? = some Slot.reset ∧
    staged.curBit.toNat + 1 < 8 * Slot.reset.active.nbytes.toNat ∧
    { staged with curBit := 55#8 }.curBit.toNat + 1 = 8 * Slot.reset.active.nbytes.toNat ∧
    staged.slots[(staged.curSlot.toNat + 1) % staged.slots.length]? = some stagedSlot := by decide

theorem witness_NextbitAlwaysReturnsABit : State.reset.Inv := reset_inv

theorem witness_NextbitWritesNoByte : State.reset.slots.length ≤ 256 ∧ ∃ t, exec .nextbit State.reset = .next t :=
  ⟨by decide, _, rfl⟩

theorem witness_ProducerNeverWritesActivePackets :
    (∃ t, step { State.reset with pending := .port (.preq 0x0000FCC03F030112#64) :: [] } = .next t) ∧
    State.reset.slots[1]? = some Slot.reset :=
  ⟨⟨_, rfl⟩, rfl⟩

theorem witness_NextbitNeverReadsStaging :
    State.reset.slots.length ≤ 256 ∧ staged = { State.reset with slots := staged.slots } ∧
    staged.slots.length = State.reset.slots.length ∧
    (∀ (k : Nat) (sl sl' : Slot), State.reset.slots[k]? = some sl → staged.slots[k]? = some sl' →
      sl'.act = sl.act ∧ sl'.active = sl.active) ∧
    ∃ t t', exec .nextbit State.reset = .next t ∧ exec .nextbit staged = .next t' := by
  refine ⟨by decide, rfl, rfl, ?_, _, _, rfl, rfl⟩
  intro k sl sl' h h'
  match k with
  | 0 => cases h; cases h'; decide
  | 1 => cases h; cases h'; decide
  | k + 2 => cases h

theorem witness_ActiveChangesOnlyAtEntry :
    ∃ (s t : State) (tl : Slot), s = { staged with curBit := 55#8, pending := [.port .nbReq] } ∧ s.slots.length ≤ 256 ∧
      step s = .next t ∧ s.pending.head? ≠ some .reset ∧ s.slots[1]? = some stagedSlot ∧ t.slots[1]? = some tl ∧
      (tl.act ≠ stagedSlot.act ∨ tl.active ≠ stagedSlot.active) :=
  ⟨_, _, _, rfl, by decide, rfl, by decide, rfl, rfl, by decide⟩

theorem witness_TraversalReturnsTheWholePacket :
    State.reset.Inv ∧ State.reset.slots[State.reset.curSlot.toNat]? = some Slot.reset ∧ State.reset.curBit = 0#8 :=
  ⟨reset_inv, rfl, rfl⟩

theorem witness_TraversalDecodesToWholeCommands :
    staged.Inv ∧ staged.slots[staged.curSlot.toNat]? = some Slot.reset ∧ staged.curBit = 0#8 :=
  ⟨staged_inv, rfl, rfl⟩

theorem witness_IdleStreamAfterReset :
    State.reset.AtReset ∧ 1 ≤ State.reset.slots.length ∧ State.reset.slots.length ≤ 256 :=
  ⟨reset_atReset, by decide, by decide⟩

theorem witness_StagedContentIsActiveWithinOneCycle :
    staged.Inv ∧ staged.slots[1]? = some stagedSlot ∧ stagedSlot.staging.nbytes ≠ 0#5 :=
  ⟨staged_inv, rfl, by decide⟩

theorem witness_PktResetEmptiesTheBuffer : staged.slots[(1#8).toNat]? = some stagedSlot := by decide

theorem witness_PktAppendWritesTheFrame :
    staged.slots[(1#8).toNat]? = some stagedSlot ∧
    ([1#8, 1#8].length < 3 ∨ 6 < [1#8, 1#8].length) ∧ (List.replicate 7 0#8).length > 6 ∧
    (3 ≤ [1#8, 2#8, 4#8].length ∧ [1#8, 2#8, 4#8].length ≤ 6 ∧ [1#8, 2#8, 4#8].foldl (· ^^^ ·) 0#8 ≠ 0#8) ∧
    ([1#8, 2#8, 3#8].foldl (· ^^^ ·) 0#8 = 0#8 ∧ (stagedSlot.buf 1#1).mem.wf = true ∧ (stagedSlot.buf 1#1).ncmd.toNat < 3 ∧
      (stagedSlot.buf 1#1).nbytes.toNat + (22 + 9 * 3 + 7) / 8 ≤ 30) ∧
    (fullSlot.buf 1#1).ncmd.toNat = 3 := by decide

theorem witness_PktGetbitReadsTheBit :
    State.reset.slots[(1#8).toNat]? = some Slot.reset ∧ (55#8).toNat < 8 * (Slot.reset.buf 0#1).nbytes.toNat ∧
    8 * (Slot.reset.buf 0#1).nbytes.toNat ≤ (56#8).toNat ∧
    (State.reset.Inv ∧ (Slot.reset.buf 0#1).nbytes ≠ 0#5 ∧ (55#8).toNat + 1 = 8 * (Slot.reset.buf 0#1).nbytes.toNat) :=
  ⟨rfl, by decide, by decide, reset_inv, by decide, by decide⟩

theorem witness_PktLengthIsEightTimesTheByteCount :
    State.reset.slots[(0#8).toNat]? = some Slot.reset ∧ State.reset.Inv := ⟨rfl, reset_inv⟩

theorem witness_SlotStageReturnsTheOtherIndex : State.reset.slots[(0#8).toNat]? = some Slot.reset := by decide

theorem witness_SlotFlipSwapsTheRoles : staged.slots[(1#8).toNat]? = some stagedSlot := by decide

theorem witness_SlotGetbitReadsTheActivePacket :
    State.reset.slots[(1#8).toNat]? = some Slot.reset ∧
    Slot.reset.buf0 = (if Slot.reset.act = 0#1 then Slot.reset.buf0 else Slot.reset.buf1) ∧
    (55#8).toNat < 8 * Slot.reset.buf0.nbytes.toNat ∧ 8 * Slot.reset.buf0.nbytes.toNat ≤ (56#8).toNat := by decide

theorem witness_SlotLengthIsTheActiveLength :
    State.reset.slots[(0#8).toNat]? = some Slot.reset ∧ State.reset.Inv := ⟨rfl, reset_inv⟩

theorem witness_InternalOperationAtAbsentSlotFaults :
    State.reset.slots.length ≤ (2#8).toNat ∧
      Instr.slotFlip 2#8 ∈ [Instr.slotStage 2#8, .slotFlip 2#8, .slotLength 2#8] := by decide

end Sys2Proof.Tests
end

section
/-! PROOFS. Bits of a frame: what stands at each position of a frame's bit list (30_encoding.md R57). -/

namespace Sys2Proof.Machine

/-- Element `j` of block `k` of a concatenation of blocks that all have length `m`. -/
theorem getElem?_flatMap_of_forall_length {α β : Type} {g : α → List β} {m : Nat} (hg : ∀ a, (g a).length = m)
    {q : List α} {k : Nat} {a : α} (hk : q[k]? = some a) {j : Nat} (hj : j < m) :
    (q.flatMap g)[m * k + j]? = (g a)[j]? := by
  induction q generalizing k with
  | nil => simp at hk
  | cons b q ih =>
    rw [List.flatMap_cons]
    cases k with
    | zero =>
      obtain rfl : b = a := by simpa using hk
      rw [Nat.mul_zero, Nat.zero_add, List.getElem?_append_left (by rw [hg]; exact hj)]
    | succ k =>
      have hoff : m * (k + 1) + j - m = m * k + j := by rw [Nat.mul_succ]; omega
      rw [List.getElem?_append_right (by rw [hg, Nat.mul_succ]; omega), hg, hoff]
      exact ih (by simpa using hk)

/-- A byte is sent most significant bit first (20_memory.md R35). -/
theorem bits8_getElem? (b : Byte) {j : Nat} (hj : j < 8) : (bits8 b)[j]? = some (b.getLsbD (7 - j)) := by
  interval_cases j <;> rfl

/-- A frame starts with the 22 preamble ones. -/
theorem frameBits_preamble (q : List Byte) {i : Nat} (hi : i < 22) : (frameBits q)[i]? = some true := by
  have hlen := frameBody_length q
  rw [frameBits, List.getElem?_append_left (by omega), frameBody, ones, Config.preambleBits,
    List.getElem?_append_left (by simpa using hi), List.getElem?_replicate, if_pos hi]

/-- Bit `j` of the nine of command byte `k`: a zero start bit, then the byte's bits. -/
theorem frameBits_byte {q : List Byte} {k : Nat} {b : Byte} (hk : q[k]? = some b) {j : Nat} (hj : j < 9) :
    (frameBits q)[22 + 9 * k + j]? = (false :: bits8 b)[j]? := by
  obtain ⟨hlt, -⟩ := List.getElem?_eq_some_iff.1 hk
  have hlen := frameBody_length q
  have hoff : 22 + 9 * k + j - (List.replicate 22 true).length = 9 * k + j := by
    rw [List.length_replicate]; omega
  rw [frameBits, List.getElem?_append_left (by omega), frameBody, ones, Config.preambleBits,
    List.getElem?_append_right (by rw [List.length_replicate]; omega), hoff]
  exact getElem?_flatMap_of_forall_length (m := 9) (fun _ => rfl) hk hj

/-- From the stop bit to the byte boundary a frame holds ones. -/
theorem frameBits_padding (q : List Byte) {i : Nat} (hlo : 22 + 9 * q.length ≤ i) (hhi : i < 8 * frameLen q.length) :
    (frameBits q)[i]? = some true := by
  have hlen := frameBody_length q
  rw [frameBits, ones, List.getElem?_append_right (by omega), List.getElem?_replicate, if_pos (by omega)]

/-- Settles O36: preamble, start and data bits, and padding, each by its own lemma on the frame's bit list. -/
theorem frameBitPositions : Obligations.FrameBitPositions := by
  intro q _ _
  simp only [bitsOf_frame]
  refine ⟨frame_length q, fun i => frameBits_preamble q, fun k b hk => ⟨?startBit, fun j hj => ?dataBit⟩,
    fun i => frameBits_padding q⟩
  case startBit => exact frameBits_byte hk (j := 0) (by decide)
  case dataBit =>
    have hpos : 23 + 9 * k + j = 22 + 9 * k + (j + 1) := by omega
    rw [hpos, frameBits_byte hk (by omega), List.getElem?_cons_succ, bits8_getElem? b hj]

end Sys2Proof.Machine
end

section
/-! PROOFS. Reserved producer words: they decode to a rejection, and serving a rejected word takes the fault
(30_encoding.md R61; 60_exceptions.md R100). -/

namespace Sys2Proof.Machine

/-- A `PREQ` with op 11 or rsv not 000 selects no operation. -/
theorem decode_preq_reserved {w : BitVec 64} (h : preqOp w = 3#2 ∨ preqRsv w ≠ 0#3) :
    decode (.preq w) = .rejected .reservedOp := by
  simp only [decode, decodePreq]
  by_cases hrsv : preqRsv w = 0#3
  · have hop : preqOp w = 3#2 := h.resolve_right (absurd hrsv)
    simp [hrsv, hop]
  · exact if_pos hrsv

/-- A step serves the head of the waiting requests. -/
theorem step_pending_cons (s : State) (r : Request) (rest : List Request) :
    step { s with pending := r :: rest } = serve r { s with pending := rest } := rfl

/-- Serving a word that decodes to a rejection. -/
theorem serve_rejected {w : PortWord} {r : Reject} (h : decode w = .rejected r) (u : State) :
    serve (.port w) u = serveRejected r u := by
  simp only [serve, servePort, h]

/-- Settles O29: the word decodes to a rejection, and the rejection takes the fault F_RESERVED_OP. -/
theorem reservedProducerWordFaults : Obligations.ReservedProducerWordFaults := by
  intro s w rest h
  rw [step_pending_cons, serve_rejected (decode_preq_reserved h)]
  rfl

end Sys2Proof.Machine
end

section
/-! PROOFS. The Command Encoder: the operation each kind of `ENCREQ` selects, what each encoding answers where it is
rejected and where it is not, and the response that carries it (41_encoder.md R66 to R75). -/

namespace Sys2Proof.Machine

/-! ### Dispatch on the kind (41_encoder.md R67) -/

section decode
variable {w : BitVec 32} (hrsv : encRsv w = false)
include hrsv

theorem decode_encreq_idle (hk : encKind w = 0#3) : decode (.encreq w) = .instr .encIdle := by
  simp only [decode, decodeEncReq, hrsv, hk]
  rfl

theorem decode_encreq_throttle (hk : encKind w = 1#3) :
    decode (.encreq w) = .instr (.encThrottle (encAddr w) (encSpeed w) (encFwd w) (encEstop w)) := by
  simp only [decode, decodeEncReq, hrsv, hk]
  rfl

theorem decode_encreq_fg1 (hk : encKind w = 2#3) :
    decode (.encreq w) = .instr (.encFg1 (encAddr w) (encFbits w)) := by
  simp only [decode, decodeEncReq, hrsv, hk]
  rfl

theorem decode_encreq_fg2l (hk : encKind w = 3#3) :
    decode (.encreq w) = .instr (.encFg2l (encAddr w) (encFbits w)) := by
  simp only [decode, decodeEncReq, hrsv, hk]
  rfl

theorem decode_encreq_fg2h (hk : encKind w = 4#3) :
    decode (.encreq w) = .instr (.encFg2h (encAddr w) (encFbits w)) := by
  simp only [decode, decodeEncReq, hrsv, hk]
  rfl

end decode

/-! ### Instruction bytes in numbers (30_encoding.md R54, R55) -/

/-- `100FFFFF`: the five function bits never reach the top three bits. -/
theorem fg1Byte_eq (fbits : BitVec 5) : 0x80#8 ||| fbits.setWidth 8 = BitVec.ofNat 8 (128 + fbits.toNat) := by
  revert fbits; decide

/-- Function bits below 16 are their own low four bits. -/
theorem fg2Bits_eq {fbits : BitVec 5} (h : fbits.toNat < 16) :
    (fbits.setWidth 4).setWidth 8 = BitVec.ofNat 8 fbits.toNat := by
  revert fbits; decide

/-- `fbits[4]` in numbers. -/
theorem fbits_bit4 (fbits : BitVec 5) : fbits.getLsbD 4 = decide (16 ≤ fbits.toNat) := by
  revert fbits; decide

/-! ### What each encoding answers -/

section encodings
variable {addr : BitVec 14}

theorem addrOutOfRange_eq_false (hlo : 1 ≤ addr.toNat) (hhi : addr.toNat ≤ 9999) : addrOutOfRange addr = false := by
  rw [Bool.eq_false_iff, Ne, addrOutOfRange_iff]
  omega

theorem encThrottle_of_addrOutOfRange (h : addrOutOfRange addr = true) (p : Config.Params) (speed : BitVec 7)
    (fwd estop : Bool) : encThrottle p addr speed fwd estop = .err .addrRange := if_pos h

theorem encThrottle_of_speedOutOfRange (ha : addrOutOfRange addr = false) {speed : BitVec 7} (h : 126 < speed.toNat)
    (p : Config.Params) (fwd estop : Bool) : encThrottle p addr speed fwd estop = .err .speedRange := by
  simp [encThrottle, ha, h]

theorem encThrottle_of_inRange (ha : addrOutOfRange addr = false) {speed : BitVec 7} (h : speed.toNat ≤ 126)
    (p : Config.Params) (fwd estop : Bool) :
    encThrottle p addr speed fwd estop = .ok (fin (addrBytes addr ++ [0x3F#8, speedByte p speed fwd estop])) := by
  simp [encThrottle, ha, h]

theorem encFg1_of_addrOutOfRange (h : addrOutOfRange addr = true) (fbits : BitVec 5) :
    encFg1 addr fbits = .err .addrRange := if_pos h

theorem encFg1_of_inRange (ha : addrOutOfRange addr = false) (fbits : BitVec 5) :
    encFg1 addr fbits = .ok (fin (addrBytes addr ++ [BitVec.ofNat 8 (128 + fbits.toNat)])) := by
  simp only [encFg1, ha, fg1Byte_eq, Bool.false_eq_true, if_false]

theorem encFg2_of_addrOutOfRange (h : addrOutOfRange addr = true) (pre : Byte) (fbits : BitVec 5) :
    encFg2 pre addr fbits = .err .addrRange := if_pos h

theorem encFg2_of_fbitsOutOfRange (ha : addrOutOfRange addr = false) {fbits : BitVec 5} (h : 16 ≤ fbits.toNat)
    (pre : Byte) : encFg2 pre addr fbits = .err .fbitsRange := by
  have hbit : fbits.getLsbD 4 = true := by rw [fbits_bit4, decide_eq_true h]
  simp only [encFg2, ha, hbit, Bool.false_eq_true, if_false, if_true]

theorem encFg2_of_inRange (ha : addrOutOfRange addr = false) {fbits : BitVec 5} (h : fbits.toNat < 16) (pre : Byte) :
    encFg2 pre addr fbits = .ok (fin (addrBytes addr ++ [pre ||| BitVec.ofNat 8 fbits.toNat])) := by
  have hbit : fbits.getLsbD 4 = false := by rw [fbits_bit4, decide_eq_false_iff_not]; omega
  simp only [encFg2, ha, hbit, fg2Bits_eq h, Bool.false_eq_true, if_false]

end encodings

/-! ### What an evaluation returns (41_encoder.md R66) -/

theorem exec_encIdle (s : State) : exec .encIdle s = .next { s with resp := .encrsp encIdle.word } := rfl

theorem exec_encThrottle (addr : BitVec 14) (speed : BitVec 7) (fwd estop : Bool) (s : State) :
    exec (.encThrottle addr speed fwd estop) s = answerEnc s (encThrottle s.params addr speed fwd estop) := rfl

theorem exec_encFg1 (addr : BitVec 14) (fbits : BitVec 5) (s : State) :
    exec (.encFg1 addr fbits) s = answerEnc s (encFg1 addr fbits) := rfl

theorem exec_encFg2l (addr : BitVec 14) (fbits : BitVec 5) (s : State) :
    exec (.encFg2l addr fbits) s = answerEnc s (encFg2 s.params.fg2lPrefix addr fbits) := rfl

theorem exec_encFg2h (addr : BitVec 14) (fbits : BitVec 5) (s : State) :
    exec (.encFg2h addr fbits) s = answerEnc s (encFg2 s.params.fg2hPrefix addr fbits) := rfl

/-- A rejection changes the response alone, which is the rejection's status. -/
theorem answerEnc_err (s : State) (e : EncError) :
    answerEnc s (.err e) = .next { s with resp := .encrsp (e.code.setWidth 56) } := by
  rw [← EncResult.word_err]
  rfl

/-- An accepted request changes the response alone, which carries the address field, the bytes behind it and the XOR of
them all. -/
theorem answerEnc_fin (s : State) {addr : BitVec 14} (ha : addr.toNat ≤ 9999) {instr : List Byte}
    (hlen : instr.length ≤ 3) :
    ∃ r, answerEnc s (.ok (fin (addrBytes addr ++ instr))) = .next { s with resp := .encrsp r } ∧
      RspCommand r (wireAddr addr.toNat ++ instr) := by
  refine ⟨_, rfl, ?_⟩
  have hfit : (fin (wireAddr addr.toNat ++ instr)).length ≤ 6 := by
    have := wireAddr_length addr.toNat
    rw [fin_length, List.length_append]
    omega
  rw [addrBytes_eq_wireAddr ha, RspCommand, ← fin_eq]
  exact EncResult.word_carries hfit

/-- What FG2L and FG2H return, whatever byte `pre` the function bits are ORed into (41_encoder.md R74, R75). -/
theorem answerEnc_encFg2 (pre : Byte) (s : State) (addr : BitVec 14) (fbits : BitVec 5) :
    (addr.toNat < 1 ∨ 9999 < addr.toNat →
      answerEnc s (encFg2 pre addr fbits) = .next { s with resp := .encrsp 1#56 }) ∧
    (1 ≤ addr.toNat → addr.toNat ≤ 9999 → 16 ≤ fbits.toNat →
      answerEnc s (encFg2 pre addr fbits) = .next { s with resp := .encrsp 3#56 }) ∧
    (1 ≤ addr.toNat → addr.toNat ≤ 9999 → fbits.toNat < 16 →
      ∃ r, answerEnc s (encFg2 pre addr fbits) = .next { s with resp := .encrsp r } ∧
        RspCommand r (wireAddr addr.toNat ++ [pre ||| BitVec.ofNat 8 fbits.toNat])) := by
  refine ⟨fun h => ?addrRange, fun hlo hhi hf => ?fbitsRange, fun hlo hhi hf => ?command⟩
  case addrRange =>
    rw [encFg2_of_addrOutOfRange ((addrOutOfRange_iff addr).2 h)]
    exact answerEnc_err s .addrRange
  case fbitsRange =>
    rw [encFg2_of_fbitsOutOfRange (addrOutOfRange_eq_false hlo hhi) hf]
    exact answerEnc_err s .fbitsRange
  case command =>
    rw [encFg2_of_inRange (addrOutOfRange_eq_false hlo hhi) hf]
    exact answerEnc_fin s hhi (by simp)

/-! ### The obligations -/

/-- Settles O2: the two range checks in their order, then the speed byte in numbers. -/
theorem encThrottleReturnsThrottleCommand : Obligations.EncThrottleReturnsThrottleCommand := by
  refine ⟨fun w => decode_encreq_throttle, fun s addr speed fwd estop => ?_⟩
  simp only [exec_encThrottle]
  refine ⟨fun h => ?addrRange, fun hlo hhi hs => ?speedRange, fun hlo hhi hs => ?command⟩
  case addrRange =>
    rw [encThrottle_of_addrOutOfRange ((addrOutOfRange_iff addr).2 h)]
    exact answerEnc_err s .addrRange
  case speedRange =>
    rw [encThrottle_of_speedOutOfRange (addrOutOfRange_eq_false hlo hhi) hs]
    exact answerEnc_err s .speedRange
  case command =>
    rw [encThrottle_of_inRange (addrOutOfRange_eq_false hlo hhi) hs, speedByte_eq _ _ _ hs]
    exact answerEnc_fin s hhi (by simp)

/-- Settles O3: the address check, then the instruction byte in numbers. -/
theorem encFg1ReturnsFunctionGroup1 : Obligations.EncFg1ReturnsFunctionGroup1 := by
  refine ⟨fun w => decode_encreq_fg1, fun s addr fbits => ?_⟩
  simp only [exec_encFg1]
  refine ⟨fun h => ?addrRange, fun hlo hhi => ?command⟩
  case addrRange =>
    rw [encFg1_of_addrOutOfRange ((addrOutOfRange_iff addr).2 h)]
    exact answerEnc_err s .addrRange
  case command =>
    rw [encFg1_of_inRange (addrOutOfRange_eq_false hlo hhi)]
    exact answerEnc_fin s hhi (by simp)

/-- Settles O4: function group 2 with `FG2L_PREFIX`. -/
theorem encFg2lReturnsFunctionGroup2Low : Obligations.EncFg2lReturnsFunctionGroup2Low := by
  refine ⟨fun w => decode_encreq_fg2l, fun s addr fbits => ?_⟩
  rw [exec_encFg2l]
  exact answerEnc_encFg2 s.params.fg2lPrefix s addr fbits

/-- Settles O5: function group 2 with `FG2H_PREFIX`. -/
theorem encFg2hReturnsFunctionGroup2High : Obligations.EncFg2hReturnsFunctionGroup2High := by
  refine ⟨fun w => decode_encreq_fg2h, fun s addr fbits => ?_⟩
  rw [exec_encFg2h]
  exact answerEnc_encFg2 s.params.fg2hPrefix s addr fbits

/-- Settles O1: the idle command is `FF 00` and their XOR, and its response carries it. -/
theorem encIdleReturnsIdleCommand : Obligations.EncIdleReturnsIdleCommand := by
  have hfin : fin [0xFF#8, 0x00#8] = [0xFF#8, 0x00#8, 0xFF#8] := by decide
  refine ⟨fun w => decode_encreq_idle, fun s => ⟨_, exec_encIdle s, ?_⟩⟩
  rw [encIdle, hfin]
  exact EncResult.word_carries (by decide)

end Sys2Proof.Machine
end

section
/-! PROOFS. The Packet operations at a slot that exists: what PKT_RESET, PKT_APPEND, PKT_GETBIT and PKT_LENGTH answer, and
what an append leaves in the buffer (42_packet.md R80 to R83). -/

namespace Sys2Proof.Machine

/-! ### Commands in numbers -/

/-- The XOR taken from the left is the checksum (41_encoder.md R69). -/
theorem foldl_xor_zero (q : List Byte) : q.foldl (· ^^^ ·) 0#8 = chk q := by
  rw [foldl_xor, BitVec.zero_xor]

/-- `L(N)` written out (42_packet.md R78). -/
theorem frameLen_eq (n : Nat) : frameLen n = (22 + 9 * n + 7) / 8 := rfl

theorem cmdLenOutOfRange_eq_false {n : Nat} (h3 : 3 ≤ n) (h6 : n ≤ 6) : cmdLenOutOfRange n = false := by
  rw [Bool.eq_false_iff, Ne, cmdLenOutOfRange_iff]
  omega

theorem cmdBytes_length {n : BitVec 3} (h : n.toNat ≤ 6) (b0 b1 b2 b3 b4 b5 : Byte) :
    (cmdBytes n b0 b1 b2 b3 b4 b5).length = n.toNat := by
  simpa [cmdBytes] using h

/-! ### One buffer: the checks of an append in their order (42_packet.md R81; 60_exceptions.md R107) -/

section append
variable {b : Buffer} {c : List Byte}

theorem Buffer.append_of_lenOutOfRange (h : c.length < 3 ∨ 6 < c.length) : b.append c = .error .cmdLen :=
  if_pos ((cmdLenOutOfRange_iff _).2 h)

theorem Buffer.append_of_chk_ne_zero (h3 : 3 ≤ c.length) (h6 : c.length ≤ 6) (hx : chk c ≠ 0#8) :
    b.append c = .error .checksum := by
  simp [Buffer.append, cmdLenOutOfRange_eq_false h3 h6, hx]

theorem Buffer.append_of_noRoom (hc : CmdWellFormed c = true)
    (hroom : b.ncmd.toNat = 3 ∨ 30 < b.nbytes.toNat + frameLen c.length) : b.append c = .error .capacity := by
  obtain ⟨h3, h6, hx⟩ := (cmdWellFormed_iff c).1 hc
  simp [Buffer.append, cmdLenOutOfRange_eq_false h3 h6, hx, hroom]

/-- A well-formed buffer holds at most 30 bytes (10_state.md R29). -/
theorem Buffer.WellFormed.nbytes_le (h : b.WellFormed) : b.nbytes.toNat ≤ 30 := by
  have hrange := Buffer.nbytes_range h
  have hcount : b.ncmd.toNat < 4 := b.ncmd.isLt
  omega

/-- Below three commands the byte condition cannot fail: two frames and one more take at most 30 bytes
(42_packet.md R81, corner cases). -/
theorem Buffer.append_ok_of_ncmd_le_two (h : b.WellFormed) (hn : b.ncmd.toNat ≤ 2) (hc : CmdWellFormed c = true) :
    b.append c = .ok (b.appended c) := by
  obtain ⟨h3, h6, -⟩ := (cmdWellFormed_iff c).1 hc
  have hheld := (Buffer.nbytes_range h).2
  have hframe := (frameLen_range h3 h6).2
  exact Buffer.append_ok hc (by omega) (by omega)

/-! ### One buffer: its bytes after an append -/

/-- The bytes appended read back as the frame. -/
theorem Buffer.read_appended_frame (hm : b.mem.wf = true) (hf : b.nbytes.toNat + frameLen c.length ≤ 30)
    {k : Nat} (hk : k < frameLen c.length) :
    some ((b.appended c).mem.read (b.nbytes.toNat + k)) = (frame c)[k]? := by
  rw [← frame_length] at hf hk
  rw [Buffer.appended_mem, Memory.read_writeBytes_inside hm hf hk, List.getElem?_eq_getElem hk]

/-- An append leaves every byte outside the frame. -/
theorem Buffer.read_appended_outside {a : Nat} (ha : a < b.nbytes.toNat ∨ b.nbytes.toNat + frameLen c.length ≤ a) :
    (b.appended c).mem.read a = b.mem.read a := by
  rw [← frame_length] at ha
  rw [Buffer.appended_mem, Memory.read_writeBytes_outside ha]

end append

/-! ### One buffer: reading a bit (42_packet.md R82) -/

theorem Buffer.getBit_of_lt {b : Buffer} {i : Nat} (h : i < b.lenbits) : b.getBit i = .ok (b.bitAt i) :=
  if_neg (by omega)

theorem Buffer.getBit_of_le {b : Buffer} {i : Nat} (h : b.lenbits ≤ i) : b.getBit i = .error .getbitRange :=
  if_pos h

/-! ### The operations at a slot that exists -/

section exec
variable {s : State} {slot : BitVec 8} {sl : Slot} (h : s.slot? slot = some sl)
include h

theorem exec_pktReset_of_slot (p : BitVec 1) :
    exec (.pktReset slot p) s = .next ((s.setSlot slot (sl.setBuf p (sl.buf p).emptied)).respond .done) := by
  rw [exec, execPktReset, pktReset_of_slot h, Except_map_ok, finish_ok]

theorem exec_pktAppend_of_ok {p : BitVec 1} {c : List Byte} {b : Buffer} (hb : (sl.buf p).append c = .ok b) :
    exec (.pktAppend slot p c) s = .next ((s.setSlot slot (sl.setBuf p b)).respond .done) := by
  rw [exec, execPktAppend, pktAppend_of_slot h, hb, Except_map_ok, Except_map_ok, finish_ok]

theorem exec_pktAppend_of_error {p : BitVec 1} {c : List Byte} {e : FaultCode} (he : (sl.buf p).append c = .error e) :
    exec (.pktAppend slot p c) s = .next (s.takeFault e (.raised e)) := by
  rw [exec, execPktAppend, pktAppend_of_slot h, he, Except_map_error, Except_map_error, finish_error]

theorem exec_pktGetbit_of_lt {p : BitVec 1} {i : BitVec 8} (hi : i.toNat < (sl.buf p).lenbits) :
    exec (.pktGetbit slot p i) s = .next (s.respond (.bit ((sl.buf p).bitAt i.toNat))) := by
  rw [exec, execPktGetbit, pktGetbit_of_slot h, Buffer.getBit_of_lt hi, Except_map_ok, finish_ok]

theorem exec_pktGetbit_of_le {p : BitVec 1} {i : BitVec 8} (hi : (sl.buf p).lenbits ≤ i.toNat) :
    exec (.pktGetbit slot p i) s = .next (s.takeFault .getbitRange (.raised .getbitRange)) := by
  rw [exec, execPktGetbit, pktGetbit_of_slot h, Buffer.getBit_of_le hi, Except_map_error, finish_error]

theorem exec_pktLength_of_slot (p : BitVec 1) :
    exec (.pktLength slot p) s = .next (s.respond (.length (BitVec.ofNat 8 (sl.buf p).lenbits))) := by
  rw [exec, execPktLength, pktLength_of_slot h, Except_map_ok, finish_ok]

/-- STAGE_APPEND of a command that the staging buffer takes (44_refresh.md R96). -/
theorem exec_stageAppend_of_ok {n : BitVec 3} {b0 b1 b2 b3 b4 b5 : Byte} {b : Buffer}
    (hn : cmdLenOutOfRange n.toNat = false) (hb : sl.staging.append (cmdBytes n b0 b1 b2 b3 b4 b5) = .ok b) :
    exec (.stageAppend slot n b0 b1 b2 b3 b4 b5) s =
      .next ((s.setSlot slot (sl.setBuf sl.stg b)).respond (.pstat 0#3)) := by
  rw [exec, execStageAppend, stageAppend_of_slot h, hn, hb]
  rfl

end exec

/-! ### The obligations -/

/-- Settles O34: at most two frames are held, so the staging buffer's append succeeds. -/
theorem threeCommandsAlwaysFit : Obligations.ThreeCommandsAlwaysFit := by
  intro s slot sl n b0 b1 b2 b3 b4 b5 hinv hsl hcount hc hn6
  have hslot : s.slot? slot = some sl := hsl
  have happend := Buffer.append_ok_of_ncmd_le_two ((hinv.slot hslot).buf sl.stg) hcount hc
  have hn3 : 3 ≤ n.toNat := by
    rw [← cmdBytes_length hn6 b0 b1 b2 b3 b4 b5]
    exact ((cmdWellFormed_iff _).1 hc).1
  exact ⟨_, exec_stageAppend_of_ok hslot (cmdLenOutOfRange_eq_false hn3 hn6) happend, rfl, rfl⟩

/-- Settles O50: one clause for each check of the append in its order, then the frame in place. -/
theorem pktAppendWritesTheFrame : Obligations.PktAppendWritesTheFrame := by
  intro s slot p sl c hsl
  have hslot : s.slot? slot = some sl := hsl
  simp only [foldl_xor_zero, ← frameLen_eq]
  refine ⟨fun hlen => ?cmdLen, fun h3 h6 hx => ?checksum, fun h3 h6 hx hroom => ?capacity,
    fun h3 h6 hx hm hn hf => ?appended⟩
  case cmdLen => exact exec_pktAppend_of_error hslot (Buffer.append_of_lenOutOfRange hlen)
  case checksum => exact exec_pktAppend_of_error hslot (Buffer.append_of_chk_ne_zero h3 h6 hx)
  case capacity =>
    have hc := (cmdWellFormed_iff c).2 ⟨h3, h6, hx⟩
    exact exec_pktAppend_of_error hslot (Buffer.append_of_noRoom hc hroom)
  case appended =>
    have hc := (cmdWellFormed_iff c).2 ⟨h3, h6, hx⟩
    refine ⟨sl.setBuf p ((sl.buf p).appended c), exec_pktAppend_of_ok hslot (Buffer.append_ok hc hn hf),
      Slot.setBuf_act _ _ _, fun q hq => Slot.buf_setBuf_other _ _ _ _ hq, ?_⟩
    rw [Slot.buf_setBuf_same]
    exact ⟨Buffer.appended_nbytes hf, Buffer.appended_ncmd hn, fun k => Buffer.read_appended_frame hm hf,
      fun a => Buffer.read_appended_outside⟩

/-- Settles O51: the last bit of a Packet that is not empty is the last padding bit of its last frame. -/
theorem pktGetbitReadsTheBit : Obligations.PktGetbitReadsTheBit := by
  intro s slot i p sl hsl
  have hslot : s.slot? slot = some sl := hsl
  refine ⟨fun hinv hne hlast => ?lastBit, fun hlt => exec_pktGetbit_of_lt hslot hlt,
    fun hle => exec_pktGetbit_of_le hslot hle⟩
  have hi : i.toNat = (sl.buf p).lenbits - 1 := Nat.eq_sub_of_add_eq hlast
  have hbit : (sl.buf p).bitAt i.toNat = true := by
    rw [hi]
    exact Buffer.last_bit ((hinv.slot hslot).buf p) hne
  rw [exec_pktGetbit_of_lt hslot (Nat.lt_of_succ_le hlast.le), hbit]
  rfl

/-- Settles O52: a length in bits fits the 8-bit result. -/
theorem pktLengthIsEightTimesTheByteCount : Obligations.PktLengthIsEightTimesTheByteCount := by
  intro s slot p sl hsl
  have hslot : s.slot? slot = some sl := hsl
  have hn : (BitVec.ofNat 8 (sl.buf p).lenbits).toNat = 8 * (sl.buf p).nbytes.toNat := by
    rw [BitVec.toNat_ofNat, Nat.mod_eq_of_lt (sl.buf p).lenbits_lt, Buffer.lenbits]
  refine ⟨_, exec_pktLength_of_slot hslot p, hn, fun hinv => ?_⟩
  have hle := ((hinv.slot hslot).buf p).nbytes_le
  omega

/-- Settles O49: the counts of the buffer named go to 0, in place. -/
theorem pktResetEmptiesTheBuffer : Obligations.PktResetEmptiesTheBuffer := by
  intro s slot sl hsl
  exact ⟨exec_pktReset_of_slot hsl 0#1, exec_pktReset_of_slot hsl 1#1⟩

end Sys2Proof.Machine
end

section
/-! PROOFS. The Slot operations at a slot that exists: what SLOT_STAGE, SLOT_FLIP, SLOT_GETBIT and SLOT_LENGTH answer, with
the active and the staging Packet read off the role bit (43_slot.md R84 to R87). -/

namespace Sys2Proof.Machine

/-! ### The roles by the role bit (10_state.md R25) -/

theorem Slot.active_eq (sl : Slot) : sl.active = if sl.act = 0#1 then sl.buf0 else sl.buf1 := rfl

theorem Slot.stg_eq (sl : Slot) : sl.stg = if sl.act = 0#1 then 1#1 else 0#1 := by
  rcases bufIndex_cases sl.act with h | h <;> simp [Slot.stg, h]

theorem Slot.staging_eq (sl : Slot) : sl.staging = if sl.act = 0#1 then sl.buf1 else sl.buf0 := by
  rcases bufIndex_cases sl.act with h | h <;> simp [Slot.staging, Slot.stg, Slot.buf, h]

/-- A flip written out for each value of the role bit (43_slot.md R85). -/
theorem Slot.flipped_eq (sl : Slot) :
    sl.flipped =
      if sl.act = 0#1 then
        if sl.buf1.nbytes = 0#5 then sl else { sl with act := 1#1, buf0 := sl.buf0.emptied }
      else
        if sl.buf0.nbytes = 0#5 then sl else { sl with act := 0#1, buf1 := sl.buf1.emptied } := by
  rw [Slot.flipped, Slot.staging_eq, Slot.active_eq, Slot.stg_eq, Slot.setBuf]
  by_cases hact : sl.act = 0#1
  · simp only [if_pos hact]
  · simp only [if_neg hact]

/-! ### Lengths in numbers -/

/-- The 8-bit length result does not wrap (42_packet.md R83). -/
theorem Buffer.toNat_ofNat_lenbits (b : Buffer) : (BitVec.ofNat 8 b.lenbits).toNat = b.lenbits := by
  rw [BitVec.toNat_ofNat, Nat.mod_eq_of_lt b.lenbits_lt]

/-- An active Packet holds one to three frames (10_state.md R29, R30). -/
theorem Slot.WellFormed.active_lenbits_range {sl : Slot} (h : sl.WellFormed) :
    56 ≤ sl.active.lenbits ∧ sl.active.lenbits ≤ 240 := by
  have hactive : sl.active.WellFormed := h.buf sl.act
  have hlo := (Buffer.nbytes_range hactive).1
  have hhi := hactive.nbytes_le
  have hcount := h.activeNonempty
  rw [Buffer.lenbits]
  omega

/-! ### The operations at a slot that exists -/

section exec
variable {s : State} {slot : BitVec 8} {sl : Slot} (h : s.slot? slot = some sl)
include h

theorem exec_slotStage_of_slot : exec (.slotStage slot) s = .next (s.respond (.index sl.stg)) := by
  rw [exec, execSlotStage, slotStage_of_slot h, Except_map_ok, finish_ok]

theorem exec_slotFlip_of_slot :
    exec (.slotFlip slot) s = .next ((s.setSlot slot sl.flipped).respond .done) := by
  rw [exec, execSlotFlip, slotFlip_of_slot h, Except_map_ok, finish_ok]

theorem exec_slotGetbit_of_lt {i : BitVec 8} (hi : i.toNat < sl.active.lenbits) :
    exec (.slotGetbit slot i) s = .next (s.respond (.bit (sl.active.bitAt i.toNat))) := by
  rw [exec, execSlotGetbit, slotGetbit_of_slot h, Buffer.getBit_of_lt hi, Except_map_ok, finish_ok]

theorem exec_slotGetbit_of_le {i : BitVec 8} (hi : sl.active.lenbits ≤ i.toNat) :
    exec (.slotGetbit slot i) s = .next (s.takeFault .getbitRange (.raised .getbitRange)) := by
  rw [exec, execSlotGetbit, slotGetbit_of_slot h, Buffer.getBit_of_le hi, Except_map_error, finish_error]

theorem exec_slotLength_of_slot :
    exec (.slotLength slot) s = .next (s.respond (.length (BitVec.ofNat 8 sl.active.lenbits))) := by
  rw [exec, execSlotLength, slotLength_of_slot h, Except_map_ok, finish_ok]

end exec

/-! ### The obligations -/

/-- Settles O54: the slot named is replaced by its flipped form, written out by the role bit. -/
theorem slotFlipSwapsTheRoles : Obligations.SlotFlipSwapsTheRoles := by
  intro s slot sl hsl
  rw [exec_slotFlip_of_slot hsl, Slot.flipped_eq]
  rfl

/-- Settles O56: the length is the active Packet's, which holds one to three frames under the invariants. -/
theorem slotLengthIsTheActiveLength : Obligations.SlotLengthIsTheActiveLength := by
  intro s slot sl hsl
  have hslot : s.slot? slot = some sl := hsl
  refine ⟨_, exec_slotLength_of_slot hslot, ?_⟩
  rw [Buffer.toNat_ofNat_lenbits]
  refine ⟨?_, fun hinv => (hinv.slot hslot).active_lenbits_range⟩
  rw [Buffer.lenbits, Slot.active_eq, apply_ite Buffer.nbytes, apply_ite BitVec.toNat]

/-- Settles O53: the answer is the staging index, which is not the active one. -/
theorem slotStageReturnsTheOtherIndex : Obligations.SlotStageReturnsTheOtherIndex := by
  intro s slot sl hsl
  rw [exec_slotStage_of_slot hsl, Slot.stg_eq]
  rfl

/-- Settles O55: the Packet the role bit selects is the active one, read within its length or faulting beyond it. -/
theorem slotGetbitReadsTheActivePacket : Obligations.SlotGetbitReadsTheActivePacket := by
  intro s slot i sl b hsl hb
  obtain rfl : b = sl.active := hb
  exact ⟨exec_slotGetbit_of_lt hsl, exec_slotGetbit_of_le hsl⟩

end Sys2Proof.Machine
end

section
/-! PROOFS. The Refresh Buffer's port operations: the words that select P_NOP and STAGE_RESET, what STAGE_RESET answers at a
slot that exists and at one that does not, and what NEXTBIT answers inside a Packet and at its last bit
(44_refresh.md R89, R90, R94, R95). -/

namespace Sys2Proof.Machine

/-! ### Dispatch on the op (44_refresh.md R93) -/

section decode
variable {w : BitVec 64} (hrsv : preqRsv w = 0#3)
include hrsv

theorem decode_preq_pNop (hop : preqOp w = 0#2) : decode (.preq w) = .instr .pNop := by
  simp only [decode, decodePreq, hrsv, hop]
  rfl

theorem decode_preq_stageReset (hop : preqOp w = 1#2) :
    decode (.preq w) = .instr (.stageReset (preqSlot w)) := by
  simp only [decode, decodePreq, hrsv, hop]
  rfl

end decode

/-! ### STAGE_RESET (44_refresh.md R95) -/

theorem stageReset_of_absent {s : State} {slot : BitVec 8} (h : s.nslots ≤ slot.toNat) :
    stageReset s slot = .error .slotIndex := if_pos h

theorem exec_stageReset_of_absent {s : State} {slot : BitVec 8} (h : s.nslots ≤ slot.toNat) :
    exec (.stageReset slot) s = .next (s.takeFault .slotIndex (.pstat 2#3)) := by
  rw [exec, execStageReset, stageReset_of_absent h, Except_map_error, finish_error]
  rfl

theorem exec_stageReset_of_slot {s : State} {slot : BitVec 8} {sl : Slot} (h : s.slot? slot = some sl) :
    exec (.stageReset slot) s =
      .next ((s.setSlot slot (sl.setBuf sl.stg sl.staging.emptied)).respond (.pstat 0#3)) := by
  rw [exec, execStageReset, stageReset_of_slot h, Except_map_ok, finish_ok]

/-- The emptied staging Packet written out for each value of the role bit. -/
theorem Slot.setBuf_staging_emptied_eq (sl : Slot) :
    sl.setBuf sl.stg sl.staging.emptied =
      if sl.act = 0#1 then { sl with buf1 := sl.buf1.emptied } else { sl with buf0 := sl.buf0.emptied } := by
  rw [Slot.stg_eq, Slot.staging_eq]
  by_cases hact : sl.act = 0#1
  · simp only [if_pos hact]
    rfl
  · simp only [if_neg hact]
    rfl

/-! ### NEXTBIT (44_refresh.md R89) -/

section nextbit
variable {s : State} {sl : Slot} (h : s.slot? s.curSlot = some sl)
include h

/-- Before the last bit of the active Packet only the cursor's bit index moves. -/
theorem exec_nextbit_of_inside (hi : s.curBit.toNat + 1 < sl.active.lenbits) :
    exec .nextbit s = .next ((s.setCursor s.curSlot.toNat (s.curBit.toNat + 1)).respond
      (.bit (sl.active.bitAt s.curBit.toNat))) := by
  rw [exec, execNextbit, nextbit_inside h hi, Except_map_ok, finish_ok]

/-- At the last bit of the active Packet the cursor enters the next slot, which is flipped. -/
theorem exec_nextbit_of_boundary {sl2 : Slot} (hm : s.nslots ≤ 256)
    (hi : s.curBit.toNat + 1 = sl.active.lenbits)
    (h2 : s.slots[(s.curSlot.toNat + 1) % s.nslots]? = some sl2) :
    exec .nextbit s = .next (((s.setCursor ((s.curSlot.toNat + 1) % s.nslots) 0).setSlot
      (BitVec.ofNat 8 ((s.curSlot.toNat + 1) % s.nslots)) sl2.flipped).respond
      (.bit (sl.active.bitAt s.curBit.toNat))) := by
  rw [exec, execNextbit, nextbit_boundary h hm hi h2, Except_map_ok, finish_ok]

end nextbit

/-- Moving the cursor within its slot leaves the slot index. -/
theorem State.setCursor_same_slot (s : State) (i : Nat) :
    s.setCursor s.curSlot.toNat i = { s with curBit := BitVec.ofNat 8 i } := by
  rw [State.setCursor, BitVec.ofNat_toNat, BitVec.setWidth_eq]

/-! ### The obligations -/

/-- Settles O39: the two branches of the cursor's move; a slot index below 256 survives its narrowing to 8 bits. -/
theorem nextbitReturnsBitAndAdvances : Obligations.NextbitReturnsBitAndAdvances := by
  intro s sl hm hsl
  refine ⟨fun hi => ?inside, fun hi sl2 h2 => ?boundary⟩
  case inside =>
    rw [exec_nextbit_of_inside hsl hi, State.setCursor_same_slot]
    rfl
  case boundary =>
    have hpos : 1 ≤ s.nslots := Nat.zero_lt_of_lt (State.slot?_lt hsl)
    obtain ⟨hentered, -⟩ := State.entered_lt hpos hm
    rw [exec_nextbit_of_boundary hsl hm hi h2, State.setSlot, hentered, Slot.flipped_eq]
    rfl

/-- Settles O40: under the invariants the cursor is within its Packet, so one of the two moves applies, and the slot entered
at the last bit exists. -/
theorem nextbitAlwaysReturnsABit : Obligations.NextbitAlwaysReturnsABit := by
  intro s hinv
  obtain ⟨sl, hsl, hcur⟩ := hinv.cursor
  rcases Nat.lt_or_eq_of_le (Nat.succ_le_of_lt hcur) with hinside | hlast
  · exact ⟨_, _, exec_nextbit_of_inside hsl hinside, rfl, rfl⟩
  · obtain ⟨-, hlt⟩ := State.entered_lt hinv.slotsPos hinv.slotsLe256
    have hnext := List.getElem?_eq_getElem hlt
    exact ⟨_, _, exec_nextbit_of_boundary hsl hinv.slotsLe256 hlast hnext, rfl, rfl⟩

/-- Settles O31: the word's dispatch, the slot index check, and the staging buffer by the role bit. -/
theorem stageResetEmptiesStaging : Obligations.StageResetEmptiesStaging := by
  refine ⟨fun w => decode_preq_stageReset, fun s slot => exec_stageReset_of_absent, fun s slot sl hsl => ?_⟩
  rw [exec_stageReset_of_slot hsl, Slot.setBuf_staging_emptied_eq]
  rfl

/-- Settles O30: the word's dispatch; the answer is the response alone. -/
theorem pNopChangesNothing : Obligations.PNopChangesNothing :=
  ⟨fun _ => decode_preq_pNop, fun _ => rfl⟩

end Sys2Proof.Machine
end

section
/-! PROOFS. The status of every encoder request: the response word of each outcome, and the rejection causes of each
kind in their order (60_exceptions.md R97, R98; 30_encoding.md R60). -/

namespace Sys2Proof.Machine

/-! ### The status of an outcome (60_exceptions.md R97) -/

/-- `ENCRSP.status` of an outcome: 0 for an accepted request, else the code of its rejection. -/
def EncResult.status : EncResult → BitVec 3
  | .ok _ => 0#3
  | .err e => e.code

theorem EncResult.rspStatus_word_eq (r : EncResult) : rspStatus r.word = r.status := by
  cases r <;> simp only [EncResult.word, EncResult.status, rspStatus_word]

/-- A response with a status other than 0 is that status alone (30_encoding.md R48). -/
theorem EncResult.word_of_status_ne_zero {r : EncResult} (h : r.status ≠ 0#3) : r.word = r.status.setWidth 56 := by
  cases r with
  | ok q => exact absurd rfl h
  | err e => exact EncResult.word_err e

/-! ### The causes of each kind in their order (60_exceptions.md R98) -/

section causes
variable (addr : BitVec 14)

theorem encThrottle_status (p : Config.Params) (speed : BitVec 7) (fwd estop : Bool) :
    (encThrottle p addr speed fwd estop).status =
      if addr.toNat < 1 ∨ 9999 < addr.toNat then 1#3 else if 126 < speed.toNat then 2#3 else 0#3 := by
  simp only [encThrottle, addrOutOfRange_iff, Config.maxSpeed]
  split_ifs <;> rfl

theorem encFg1_status (fbits : BitVec 5) :
    (encFg1 addr fbits).status = if addr.toNat < 1 ∨ 9999 < addr.toNat then 1#3 else 0#3 := by
  simp only [encFg1, addrOutOfRange_iff]
  split_ifs <;> rfl

theorem encFg2_status (pre : Byte) (fbits : BitVec 5) :
    (encFg2 pre addr fbits).status =
      if addr.toNat < 1 ∨ 9999 < addr.toNat then 1#3 else if fbits.getLsbD 4 = true then 3#3 else 0#3 := by
  simp only [encFg2, addrOutOfRange_iff]
  split_ifs <;> rfl

end causes

/-- The kinds of `ENCREQ`: five legal ones, then the reserved ones (30_encoding.md R60). -/
theorem encKind_cases (k : BitVec 3) : k = 0#3 ∨ k = 1#3 ∨ k = 2#3 ∨ k = 3#3 ∨ k = 4#3 ∨ 5 ≤ k.toNat := by
  revert k; decide

/-- The top bit of the function bits is bit 30 of the word (30_encoding.md R47). -/
theorem encFbits_bit4 (w : BitVec 32) : (encFbits w).getLsbD 4 = w.getLsbD 30 := by
  simp

/-- The status `ENCODE` gives a word: the causes of all kinds in one order. -/
theorem encodeRequest_status (p : Config.Params) (w : BitVec 32) :
    (encodeRequest p w).status =
      if encRsv w = true ∨ 5 ≤ (encKind w).toNat then 4#3
      else if encKind w ≠ 0#3 ∧ ((encAddr w).toNat < 1 ∨ 9999 < (encAddr w).toNat) then 1#3
      else if encKind w = 1#3 ∧ 126 < (encSpeed w).toNat then 2#3
      else if (encKind w = 3#3 ∨ encKind w = 4#3) ∧ w.getLsbD 30 = true then 3#3
      else 0#3 := by
  rw [encodeRequest, ← encFbits_bit4]
  cases encRsv w with
  | true => rfl
  | false =>
    generalize encKind w = k
    rcases encKind_cases k with rfl | rfl | rfl | rfl | rfl | hk
    · rfl
    · simpa using encThrottle_status (encAddr w) p (encSpeed w) (encFwd w) (encEstop w)
    · simpa using encFg1_status (encAddr w) (encFbits w)
    · simpa using encFg2_status (encAddr w) p.fg2lPrefix (encFbits w)
    · simpa using encFg2_status (encAddr w) p.fg2hPrefix (encFbits w)
    · have hne : ∀ j : BitVec 3, j.toNat < 5 → k ≠ j := fun j hj he => by subst he; omega
      simp [hk, hne, EncResult.status, EncError.code]

/-! ### The step -/

/-- Serving an `ENCREQ` answers what `ENCODE` gives, with the dispatch of the decoder (41_encoder.md R66, R67). -/
theorem serve_encreq (u : State) (w : BitVec 32) :
    serve (.port (.encreq w)) u = answerEnc u (encodeRequest u.params w) := by
  simp only [serve, servePort, decode, decodeEncReq, encodeRequest]
  split_ifs <;> rfl

/-- Settles O7: the step answers what `ENCODE` gives, whose status has its causes in order and is a rejected response's
whole content. -/
theorem encoderStatusAndPriority : Obligations.EncoderStatusAndPriority := by
  intro s w rest
  refine ⟨(encodeRequest s.params w).word, ?step, ?status, ?alone⟩
  case step =>
    rw [step_pending_cons, serve_encreq]
    rfl
  case status =>
    rw [EncResult.rspStatus_word_eq]
    exact encodeRequest_status s.params w
  case alone =>
    rw [EncResult.rspStatus_word_eq]
    exact EncResult.word_of_status_ne_zero

end Sys2Proof.Machine
end

section
/-! PROOFS. The status of every producer request: what `pstat` shows of an operation's outcome, and the fault causes in
their order (60_exceptions.md R107, R108). -/

namespace Sys2Proof.Machine

/-! ### The status of an outcome (60_exceptions.md R108) -/

/-- `pstat` of an outcome: 0 where the operation completed, else the code of its fault. -/
def pstatus {α : Type} : Except FaultCode α → BitVec 3
  | .ok _ => 0#3
  | .error c => c.code

theorem pstatus_map {α β : Type} (f : α → β) (res : Except FaultCode α) : pstatus (res.map f) = pstatus res := by
  cases res <;> rfl

/-- A producer operation ends with its status as the response. -/
theorem finish_pstatus (u : State) (res : Except FaultCode State) :
    ∃ t, finish u pstatOf (res.map fun v => (v, .pstat 0#3)) = .next t ∧ t.resp = .pstat (pstatus res) := by
  cases res <;> exact ⟨_, rfl, rfl⟩

/-! ### The causes of each operation in their order (60_exceptions.md R107) -/

theorem Buffer.append_pstatus (b : Buffer) (c : List Byte) :
    pstatus (b.append c) =
      if c.length < 3 ∨ 6 < c.length then 3#3
      else if chk c ≠ 0#8 then 4#3
      else if b.ncmd.toNat = 3 ∨ 30 < b.nbytes.toNat + frameLen c.length then 5#3
      else 0#3 := by
  simp only [Buffer.append, cmdLenOutOfRange_iff, Config.maxCmds, Config.capBytes]
  split_ifs <;> rfl

section stageAppend
variable {u : State} {slot : BitVec 8} (n : BitVec 3) (b0 b1 b2 b3 b4 b5 : Byte)

theorem stageAppend_pstatus_of_absent (h : u.nslots ≤ slot.toNat) :
    pstatus (stageAppend u slot n b0 b1 b2 b3 b4 b5) = 2#3 := by
  rw [stageAppend, if_pos h]
  rfl

/-- The length is checked before the bytes are cut to it, so the append's own check passes. -/
theorem stageAppend_pstatus_of_slot {sl : Slot} (h : u.slot? slot = some sl) :
    pstatus (stageAppend u slot n b0 b1 b2 b3 b4 b5) =
      if n.toNat < 3 ∨ 6 < n.toNat then 3#3
      else if chk (cmdBytes n b0 b1 b2 b3 b4 b5) ≠ 0#8 then 4#3
      else if sl.staging.ncmd.toNat = 3 ∨ 30 < sl.staging.nbytes.toNat + frameLen n.toNat then 5#3
      else 0#3 := by
  simp only [stageAppend_of_slot h, cmdLenOutOfRange_iff]
  by_cases hn : n.toNat < 3 ∨ 6 < n.toNat
  · rw [if_pos hn, if_pos hn]
    rfl
  · rw [if_neg hn, pstatus_map, Buffer.append_pstatus, cmdBytes_length (by omega)]

end stageAppend

/-! ### The outcome of a word -/

/-- What the producer's dispatch makes of a `PREQ`: the next state of the operation selected, or the fault raised
(44_refresh.md R93). -/
def producerOutcome (u : State) (w : BitVec 64) : Except FaultCode State :=
  if preqRsv w ≠ 0#3 then .error .reservedOp
  else if preqOp w = 0#2 then .ok u
  else if preqOp w = 1#2 then stageReset u (preqSlot w)
  else if preqOp w = 2#2 then
    stageAppend u (preqSlot w) (preqN w) (preqByte w 0) (preqByte w 1) (preqByte w 2) (preqByte w 3) (preqByte w 4)
      (preqByte w 5)
  else .error .reservedOp

/-- Serving a `PREQ` ends with its outcome, shown in `pstat`. -/
theorem serve_preq (u : State) (w : BitVec 64) :
    serve (.port (.preq w)) u = finish u pstatOf ((producerOutcome u w).map fun v => (v, .pstat 0#3)) := by
  simp only [serve, servePort, decode, decodePreq, producerOutcome]
  split_ifs <;> rfl

/-- Serving a `PREQ` leaves the requests behind it. -/
theorem serve_preq_pending {w : BitVec 64} {u t : State} (h : serve (.port (.preq w)) u = .next t) :
    t.pending = u.pending := by
  cases serve_cases h with
  | answered _ _ ht => rw [ht, State.respond_pending]
  | faulted _ _ _ _ ht => rw [ht, State.takeFault_pending]
  | emptied _ _ _ ht => rw [ht, State.respond_pending, State.setSlot_pending]
  | appended _ _ _ _ _ _ _ ht => rw [ht, State.respond_pending, State.setSlot_pending]
  | wasReset hr => cases hr
  | advanced _ _ hr => cases hr

/-- The operations a `PREQ` names. -/
theorem preqOp_cases (op : BitVec 2) : op = 0#2 ∨ op = 1#2 ∨ op = 2#2 ∨ op = 3#2 := by
  revert op; decide

theorem producerOutcome_pstatus_of_reserved (u : State) {w : BitVec 64} (h : preqOp w = 3#2 ∨ preqRsv w ≠ 0#3) :
    pstatus (producerOutcome u w) = 1#3 := by
  by_cases hrsv : preqRsv w = 0#3
  · have hop : preqOp w = 3#2 := h.resolve_right (absurd hrsv)
    simp only [producerOutcome, hrsv, hop]
    rfl
  · rw [producerOutcome, if_pos hrsv]
    rfl

section outcome
variable (u : State) {w : BitVec 64} (hrsv : preqRsv w = 0#3)
include hrsv

theorem producerOutcome_of_pNop (hop : preqOp w = 0#2) : producerOutcome u w = .ok u := by
  simp only [producerOutcome, hrsv, hop]
  rfl

theorem producerOutcome_of_stageReset (hop : preqOp w = 1#2) :
    producerOutcome u w = stageReset u (preqSlot w) := by
  simp only [producerOutcome, hrsv, hop]
  rfl

theorem producerOutcome_of_stageAppend (hop : preqOp w = 2#2) :
    producerOutcome u w =
      stageAppend u (preqSlot w) (preqN w) (preqByte w 0) (preqByte w 1) (preqByte w 2) (preqByte w 3) (preqByte w 4)
        (preqByte w 5) := by
  simp only [producerOutcome, hrsv, hop]
  rfl

/-- Both operations on a slot fault F_SLOT_INDEX before anything else (60_exceptions.md R101). -/
theorem producerOutcome_pstatus_of_absent (hop : preqOp w = 1#2 ∨ preqOp w = 2#2)
    (h : u.nslots ≤ (preqSlot w).toNat) : pstatus (producerOutcome u w) = 2#3 := by
  rcases hop with hop | hop
  · rw [producerOutcome_of_stageReset u hrsv hop, stageReset_of_absent h]
    rfl
  · rw [producerOutcome_of_stageAppend u hrsv hop, stageAppend_pstatus_of_absent _ _ _ _ _ _ _ h]

end outcome

/-- Settles O28: a reserved word first, then P_NOP, then a slot that does not exist, then the two operations at a slot
that does. -/
theorem producerStatusAndPriority : Obligations.ProducerStatusAndPriority := by
  intro s w rest
  obtain ⟨t, ht, hresp⟩ := finish_pstatus { s with pending := rest } (producerOutcome { s with pending := rest } w)
  rw [← serve_preq] at ht
  refine ⟨t, ht, serve_preq_pending ht, ?_⟩
  rintro _ _ _ _ rfl rfl rfl rfl
  rw [hresp, foldl_xor_zero]
  congr 1
  by_cases hreserved : preqOp w = 3#2 ∨ preqRsv w ≠ 0#3
  · rw [if_pos hreserved, producerOutcome_pstatus_of_reserved _ hreserved]
  obtain ⟨hop3, hrsv⟩ : preqOp w ≠ 3#2 ∧ preqRsv w = 0#3 := by simpa using hreserved
  rw [if_neg hreserved]
  by_cases hnop : preqOp w = 0#2
  · rw [if_pos hnop, producerOutcome_of_pNop _ hrsv hnop]
    rfl
  rw [if_neg hnop]
  have hop : preqOp w = 1#2 ∨ preqOp w = 2#2 := by simpa [hnop, hop3] using preqOp_cases (preqOp w)
  cases hslot : s.slots[(preqSlot w).toNat]? with
  | none => exact producerOutcome_pstatus_of_absent _ hrsv hop (List.getElem?_eq_none_iff.1 hslot)
  | some sl =>
    have hsl : State.slot? { s with pending := rest } (preqSlot w) = some sl := hslot
    rcases hop with hop | hop
    · rw [producerOutcome_of_stageReset _ hrsv hop, stageReset_of_slot hsl]
      exact (if_pos hop).symm
    · have hne : preqOp w ≠ 1#2 := by rw [hop]; decide
      rw [producerOutcome_of_stageAppend _ hrsv hop, stageAppend_pstatus_of_slot _ _ _ _ _ _ _ hsl]
      exact (if_neg hne).symm

end Sys2Proof.Machine
end


section
/-! PROOFS. Where an active Packet can change: what each kind of served request leaves of a slot's role bit and active
Packet (70_reset_and_hazards.md R119). -/

namespace Sys2Proof.Machine

/-- A request other than the idle port's that is served stands first among the waiting ones. -/
theorem State.pending_head?_of_nextRequest {s : State} {r : Request} (h : s.nextRequest = r) (hr : r ≠ idleRequest) :
    s.pending.head? = some r := by
  cases hp : s.pending with
  | nil => exact absurd (by rw [← h, State.nextRequest, hp]) hr
  | cons a rest =>
    obtain rfl : a = r := by rw [← h, State.nextRequest, hp]
    rfl

section oneSlot
variable {u : State} {k : Nat} {sl tl : Slot} (hs : u.slots[k]? = some sl)
include hs

/-- After slot `i` is replaced, a slot is the replaced one or as it was. -/
theorem State.setSlot_slots_cases {i : BitVec 8} {old new : Slot} (hi : u.slot? i = some old)
    (ht : (u.setSlot i new).slots[k]? = some tl) : (i.toNat = k ∧ sl = old ∧ tl = new) ∨ tl = sl := by
  rw [State.setSlot_slots] at ht
  by_cases hk : i.toNat = k
  · subst hk
    rw [List.getElem?_set_self (State.slot?_lt hi)] at ht
    exact .inl ⟨rfl, Option.some.inj (hs.symm.trans hi), (Option.some.inj ht).symm⟩
  · rw [List.getElem?_set_ne hk, hs] at ht
    exact .inr (Option.some.inj ht).symm

/-- A Slot that keeps its role bit and its active Packet, put in place of another, keeps those of every slot. -/
theorem State.setSlot_keeps_active {i : BitVec 8} {old new : Slot} (hi : u.slot? i = some old)
    (hact : new.act = old.act) (hactive : new.active = old.active) (ht : (u.setSlot i new).slots[k]? = some tl) :
    tl.act = sl.act ∧ tl.active = sl.active := by
  rcases State.setSlot_slots_cases hs hi ht with ⟨-, rfl, rfl⟩ | rfl
  · exact ⟨hact, hactive⟩
  · exact ⟨rfl, rfl⟩

/-- A slot that a flip of slot `i` changes is slot `i`, and what was staged there is active. -/
theorem State.setSlot_flipped_changes {i : BitVec 8} {old : Slot} (hi : u.slot? i = some old)
    (ht : (u.setSlot i old.flipped).slots[k]? = some tl) (hne : tl.act ≠ sl.act ∨ tl.active ≠ sl.active) :
    i.toNat = k ∧ tl.active = sl.staging ∧ sl.staging.nbytes ≠ 0#5 := by
  rcases State.setSlot_slots_cases hs hi ht with ⟨hk, rfl, rfl⟩ | rfl
  · rcases sl.flipped_cases with ⟨-, hsame⟩ | ⟨hstaged, -, hactive, -⟩
    · exact absurd hne (by simp [hsame])
    · exact ⟨hk, hactive, hstaged⟩
  · exact absurd hne (by simp)

/-- NEXTBIT changes a role bit or an active Packet only at the last bit of the Packet it reads, in the slot it enters. -/
theorem nextbit_changes_active {v : State} {b : Bool} (hm : u.nslots ≤ 256) (hn : nextbit u = .ok (v, b))
    (ht : v.slots[k]? = some tl) (hne : tl.act ≠ sl.act ∨ tl.active ≠ sl.active) :
    v.curSlot.toNat = k ∧ v.curBit = 0#8 ∧
      (∃ cl, u.slot? u.curSlot = some cl ∧ u.curBit.toNat + 1 = cl.active.lenbits) ∧
      tl.active = sl.staging ∧ sl.staging.nbytes ≠ 0#5 := by
  obtain ⟨cl, hcl, -, -, ⟨-, rfl⟩ | ⟨hlast, entered, hentered, rfl⟩⟩ := nextbit_cases hm hn
  · obtain rfl : sl = tl := Option.some.inj (hs.symm.trans ht)
    exact absurd hne (by simp)
  · obtain ⟨hindex, -⟩ := State.entered_lt (Nat.zero_lt_of_lt (State.slot?_lt hcl)) hm
    obtain ⟨hk, hactive, hstaged⟩ := State.setSlot_flipped_changes hs (by rw [State.slot?, hindex]; exact hentered) ht hne
    exact ⟨hk, rfl, ⟨cl, hcl, hlast⟩, hactive, hstaged⟩

end oneSlot

/-- Settles O44: of all a step can do, only NEXTBIT reaches a role bit or an active Packet. -/
theorem activeChangesOnlyAtEntry : Obligations.ActiveChangesOnlyAtEntry := by
  intro s t k sl tl hm hstep hreset hs ht hne
  have hsame : ¬ (tl.act = sl.act ∧ tl.active = sl.active) := by
    rintro ⟨ha, hb⟩
    exact absurd hne (by simp [ha, hb])
  have hd : s.dropRequest.slots[k]? = some sl := hs
  have hkept : t.slots ≠ s.slots := fun h => by
    obtain rfl : sl = tl := Option.some.inj (hs.symm.trans (h ▸ ht))
    exact hsame ⟨rfl, rfl⟩
  cases serve_cases hstep with
  | answered _ _ h => exact absurd (by rw [h]; rfl) hkept
  | faulted _ _ _ _ h => exact absurd (by rw [h]; rfl) hkept
  | wasReset hr => exact absurd (State.pending_head?_of_nextRequest hr (by decide)) hreset
  | emptied i old hi h =>
    rw [h] at ht
    exact absurd (State.setSlot_keeps_active hd hi (old.setBuf_act _ _) (old.setBuf_staging_active _) ht) hsame
  | appended i old q hi _ _ _ h =>
    rw [h] at ht
    exact absurd (State.setSlot_keeps_active hd hi (old.setBuf_act _ _) (old.setBuf_staging_active _) ht) hsame
  | advanced v b hr hn h =>
    subst h
    exact ⟨State.pending_head?_of_nextRequest hr (by decide), nextbit_changes_active (v := v) hd hm hn ht hne⟩

end Sys2Proof.Machine
end

section
/-! PROOFS. Runs of NEXTBITs: a run cut in two, a run to the end of the Packet at the cursor, and the idle stream of a block
that no producer has written (44_refresh.md R91; 70_reset_and_hazards.md R118). -/

namespace Sys2Proof.Machine

/-! ### Runs -/

/-- A run of at least one NEXTBIT, taken apart: its first bit and the run behind it. -/
theorem nextbits_succ_eq_some {k : Nat} {s v : State} {bs : List Bool} :
    nextbits (k + 1) s = some (bs, v) ↔
      ∃ t b cs, exec .nextbit s = .next t ∧ t.resp = .bit b ∧ nextbits k t = some (cs, v) ∧ bs = b :: cs := by
  rw [nextbits]
  cases hexec : exec .nextbit s with
  | fault r => simp [nextState]
  | refused r => simp [nextState]
  | next t =>
    simp only [nextState]
    split
    · next b hresp =>
      rw [Option.map_eq_some_iff]
      constructor
      · rintro ⟨⟨cs, u⟩, hrun, heq⟩
        cases heq
        exact ⟨t, b, cs, rfl, hresp, hrun, rfl⟩
      · rintro ⟨t', b', cs, ht, hb, hrun, rfl⟩
        cases ht
        cases hresp.symm.trans hb
        exact ⟨(cs, v), hrun, rfl⟩
    · next hno =>
      refine iff_of_false nofun ?_
      rintro ⟨t', b, cs, ht, hb, -, -⟩
      cases ht
      exact hno b hb

/-- A run, and a run from where it ends. -/
theorem nextbits_append {m n : Nat} {s u v : State} {bs cs : List Bool} (hm : nextbits m s = some (bs, u))
    (hn : nextbits n u = some (cs, v)) : nextbits (m + n) s = some (bs ++ cs, v) := by
  induction m generalizing s bs with
  | zero =>
    cases hm
    rw [Nat.zero_add]
    exact hn
  | succ m ih =>
    obtain ⟨t, b, rest, hexec, hresp, hrest, rfl⟩ := nextbits_succ_eq_some.1 hm
    rw [Nat.succ_add]
    exact nextbits_succ_eq_some.2 ⟨t, b, rest ++ cs, hexec, hresp, ih hrest, rfl⟩

/-! ### To the end of a Packet (44_refresh.md R91) -/

/-- The bits of a Packet from one on are that bit and those behind it. -/
theorem Buffer.drop_bits {b : Buffer} {i : Nat} (h : i < b.lenbits) :
    b.bits.drop i = b.bitAt i :: b.bits.drop (i + 1) := by
  rw [List.drop_eq_getElem_cons (by simpa [Buffer.bits] using h)]
  simp [Buffer.bits]

/-- From any bit of the active Packet at the cursor, the `d + 1` NEXTBITs to its end return the bits that are left of it,
then enter and flip the next slot. -/
theorem nextbits_to_end {s : State} {sl entered : Slot} {d : Nat} (hm : s.nslots ≤ 256)
    (hs : s.slot? s.curSlot = some sl) (h2 : s.slots[(s.curSlot.toNat + 1) % s.nslots]? = some entered)
    (hd : s.curBit.toNat + (d + 1) = sl.active.lenbits) :
    nextbits (d + 1) s = some (sl.active.bits.drop s.curBit.toNat,
      ((s.setCursor ((s.curSlot.toNat + 1) % s.nslots) 0).setSlot
        (BitVec.ofNat 8 ((s.curSlot.toNat + 1) % s.nslots)) entered.flipped).respond
        (.bit (sl.active.bitAt (sl.active.lenbits - 1)))) := by
  induction d generalizing s with
  | zero =>
    have hlast : sl.active.lenbits - 1 = s.curBit.toNat := by omega
    have hend : sl.active.bits.drop (s.curBit.toNat + 1) = [] :=
      List.drop_eq_nil_of_le (by simp [Buffer.bits]; omega)
    rw [Buffer.drop_bits (by omega), hend, hlast]
    exact nextbits_succ_eq_some.2 ⟨_, _, [], exec_nextbit_of_boundary hs hm hd h2, rfl, rfl, rfl⟩
  | succ d ih =>
    have hbit : (BitVec.ofNat 8 (s.curBit.toNat + 1)).toNat = s.curBit.toNat + 1 := by
      have := sl.active.lenbits_lt
      rw [BitVec.toNat_ofNat]
      omega
    have hmoved := exec_nextbit_of_inside hs (by omega)
    rw [State.setCursor_same_slot] at hmoved
    have hrest := ih (s := State.respond { s with curBit := BitVec.ofNat 8 (s.curBit.toNat + 1) }
      (.bit (sl.active.bitAt s.curBit.toNat))) hm hs h2 (by rw [State.respond_curBit, hbit]; omega)
    rw [State.respond_curBit, hbit] at hrest
    rw [Buffer.drop_bits (by omega)]
    exact nextbits_succ_eq_some.2 ⟨_, _, _, hmoved, rfl, hrest, rfl⟩

/-! ### The idle stream (70_reset_and_hazards.md R118) -/

/-- The frame of the idle command (70_reset_and_hazards.md R115). -/
def idleFrameBytes : List Byte := [0xFF#8, 0xFF#8, 0xFD#8, 0xFE#8, 0x00#8, 0x7F#8, 0xFF#8]

/-- Every slot as reset leaves it, the cursor at bit 0 of any of them. -/
structure State.Idling (s : State) : Prop where
  slots : ∀ sl ∈ s.slots, sl.AtReset
  slotsLe : s.nslots ≤ 256
  cursor : s.curSlot.toNat < s.nslots
  curBit : s.curBit = 0#8

/-- `s` at bit 0 of slot `k`, a one just returned. -/
def State.idleAt (s : State) (k : Nat) : State := (s.setCursor k 0).respond (.bit true)

section idleSlot
variable {sl : Slot} (h : sl.AtReset)
include h

theorem Slot.AtReset.active_eq : sl.active = sl.buf0 := by
  rw [Slot.active_eq, if_pos h.act]

theorem Slot.AtReset.active_lenbits : sl.active.lenbits = 56 := by
  rw [h.active_eq, Buffer.lenbits, h.nbytes0]
  rfl

theorem Slot.AtReset.active_bits : sl.active.bits = bitsOf idleFrameBytes := by
  rw [h.active_eq, Buffer.bits_eq, h.idle]
  rfl

/-- The last bit of the idle frame is a padding one. -/
theorem Slot.AtReset.active_last_bit : sl.active.bitAt 55 = true := by
  have hlast : sl.active.bits[55]? = some true := by
    rw [h.active_bits]
    decide
  simpa [Buffer.bits, h.active_lenbits] using hlast

/-- With nothing staged a flip changes nothing. -/
theorem Slot.AtReset.flipped_eq : sl.flipped = sl := by
  have hempty : sl.staging.nbytes = 0#5 := by rw [Slot.staging_eq, if_pos h.act, h.nbytes1]
  rw [Slot.flipped, if_pos hempty]

end idleSlot

theorem State.AtReset.idling {s : State} (h : s.AtReset) (hpos : 1 ≤ s.nslots) (hle : s.nslots ≤ 256) : s.Idling :=
  ⟨h.slots, hle, by rw [h.curSlot]; exact hpos, h.curBit⟩

/-- Replacing a slot by itself changes nothing. -/
theorem State.setSlot_self {s : State} {i : BitVec 8} {sl : Slot} (h : s.slot? i = some sl) : s.setSlot i sl = s := by
  obtain ⟨hlt, hget⟩ := List.getElem?_eq_some_iff.1 h
  rw [State.setSlot, ← hget, List.set_getElem_self]

/-- Setting the cursor where it stands changes nothing. -/
theorem State.setCursor_self (s : State) : s.setCursor s.curSlot.toNat s.curBit.toNat = s := by
  rw [State.setCursor_same_slot, BitVec.ofNat_toNat, BitVec.setWidth_eq]

section idling
variable {s : State} (h : s.Idling)
include h

theorem State.Idling.idleAt {k : Nat} (hk : k < s.nslots) : (s.idleAt k).Idling := by
  have hle := h.slotsLe
  refine ⟨h.slots, hle, ?_, rfl⟩
  change (BitVec.ofNat 8 k).toNat < s.nslots
  rw [BitVec.toNat_ofNat]
  omega

/-- One Packet of the idle stream: 56 NEXTBITs return the idle frame and enter the next slot. -/
theorem State.Idling.nextbits_frame :
    nextbits 56 s = some (bitsOf idleFrameBytes, s.idleAt ((s.curSlot.toNat + 1) % s.nslots)) := by
  obtain ⟨hindex, hlt⟩ := State.entered_lt (Nat.zero_lt_of_lt h.cursor) h.slotsLe
  have hcur := List.getElem?_eq_getElem (l := s.slots) h.cursor
  have hnext := List.getElem?_eq_getElem (l := s.slots) hlt
  have hsl := h.slots _ (List.mem_of_getElem? hcur)
  have hentered := h.slots _ (List.mem_of_getElem? hnext)
  have hrun := nextbits_to_end (d := 55) h.slotsLe hcur hnext (by rw [h.curBit, hsl.active_lenbits]; rfl)
  rw [hentered.flipped_eq, State.setSlot_self (by rw [State.setCursor_slot?, State.slot?, hindex]; exact hnext),
    hsl.active_bits, hsl.active_lenbits, hsl.active_last_bit, h.curBit] at hrun
  exact hrun

end idling

/-- The idle stream from any slot: `m + 1` Packets return as many idle frames and move the cursor as many slots on. -/
theorem State.Idling.nextbits_frames {s : State} (h : s.Idling) (m : Nat) :
    nextbits (56 * (m + 1)) s = some (bitsOf (List.replicate (m + 1) idleFrameBytes).flatten,
      s.idleAt ((s.curSlot.toNat + (m + 1)) % s.nslots)) := by
  induction m generalizing s with
  | zero => exact h.nextbits_frame
  | succ m ih =>
    obtain ⟨hindex, hlt⟩ := State.entered_lt (Nat.zero_lt_of_lt h.cursor) h.slotsLe
    have hcur : (s.idleAt ((s.curSlot.toNat + 1) % s.nslots)).curSlot.toNat = (s.curSlot.toNat + 1) % s.nslots := hindex
    have hpos : ((s.curSlot.toNat + 1) % s.nslots + (m + 1)) % s.nslots = (s.curSlot.toNat + (m + 1 + 1)) % s.nslots := by
      rw [Nat.mod_add_mod, Nat.add_assoc, Nat.add_comm 1]
    have hrest := ih (h.idleAt hlt)
    rw [hcur] at hrest
    have hrun := nextbits_append h.nextbits_frame hrest
    rw [← bitsOf_append, ← List.flatten_cons, ← List.replicate_succ, Nat.add_comm 56] at hrun
    rw [← hpos]
    exact hrun

/-- Settles O47: as many idle frames as there are slots take the cursor once round the block. -/
theorem idleStreamAfterReset : Obligations.IdleStreamAfterReset := by
  intro s h hpos hle
  have hrun := (h.idling hpos hle).nextbits_frames (s.slots.length - 1)
  have hround : s.idleAt ((s.curSlot.toNat + s.slots.length) % s.nslots) = { s with resp := .bit true } := by
    have hzero : (s.curSlot.toNat + s.slots.length) % s.nslots = 0 := by
      rw [h.curSlot]
      simp [State.nslots]
    have hcursor := s.setCursor_self
    rw [h.curSlot, h.curBit] at hcursor
    rw [hzero]
    exact congrArg (State.respond · (.bit true)) hcursor
  rw [Nat.sub_add_cancel hpos, hround] at hrun
  exact hrun

end Sys2Proof.Machine
end

section
/-! PROOFS. The decoder and the encoder of operations: what every word decodes to, that decoding undoes encoding, and that
encoding undoes decoding on the bits an operation reads (30_encoding.md R47, R49, R50, R60, R61). -/

namespace Sys2Proof.Machine

/-! ### Dispatch, completed (44_refresh.md R93; 41_encoder.md R67) -/

theorem decode_preq_stageAppend {w : BitVec 64} (hrsv : preqRsv w = 0#3) (hop : preqOp w = 2#2) :
    decode (.preq w) = .instr (.stageAppend (preqSlot w) (preqN w) (preqByte w 0) (preqByte w 1) (preqByte w 2)
      (preqByte w 3) (preqByte w 4) (preqByte w 5)) := by
  simp only [decode, decodePreq, hrsv, hop]
  rfl

/-- An `ENCREQ` with bit 31 set or a kind above 100 selects no operation. -/
theorem decode_encreq_reserved {w : BitVec 32} (h : encRsv w = true ∨ 5 ≤ (encKind w).toNat) :
    decode (.encreq w) = .rejected .reservedEncReq := by
  simp only [decode, decodeEncReq]
  by_cases hrsv : encRsv w = true
  · exact if_pos hrsv
  · have hk : ∀ k : BitVec 3, k.toNat < 5 → encKind w ≠ k := by
      rintro k hlt rfl
      exact absurd (h.resolve_left hrsv) (by omega)
    simp [hk]

/-- Everything an `ENCREQ` decodes to. -/
theorem decode_encreq_cases (w : BitVec 32) :
    ((encRsv w = true ∨ 5 ≤ (encKind w).toNat) ∧ decode (.encreq w) = .rejected .reservedEncReq) ∨
    (encRsv w = false ∧
      ((encKind w = 0#3 ∧ decode (.encreq w) = .instr .encIdle) ∨
       (encKind w = 1#3 ∧
          decode (.encreq w) = .instr (.encThrottle (encAddr w) (encSpeed w) (encFwd w) (encEstop w))) ∨
       (encKind w = 2#3 ∧ decode (.encreq w) = .instr (.encFg1 (encAddr w) (encFbits w))) ∨
       (encKind w = 3#3 ∧ decode (.encreq w) = .instr (.encFg2l (encAddr w) (encFbits w))) ∨
       (encKind w = 4#3 ∧ decode (.encreq w) = .instr (.encFg2h (encAddr w) (encFbits w))))) := by
  cases hrsv : encRsv w with
  | true => exact .inl ⟨.inl rfl, decode_encreq_reserved (.inl hrsv)⟩
  | false =>
    rcases encKind_cases (encKind w) with hk | hk | hk | hk | hk | hk
    · exact .inr ⟨rfl, .inl ⟨hk, decode_encreq_idle hrsv hk⟩⟩
    · exact .inr ⟨rfl, .inr (.inl ⟨hk, decode_encreq_throttle hrsv hk⟩)⟩
    · exact .inr ⟨rfl, .inr (.inr (.inl ⟨hk, decode_encreq_fg1 hrsv hk⟩))⟩
    · exact .inr ⟨rfl, .inr (.inr (.inr (.inl ⟨hk, decode_encreq_fg2l hrsv hk⟩)))⟩
    · exact .inr ⟨rfl, .inr (.inr (.inr (.inr ⟨hk, decode_encreq_fg2h hrsv hk⟩)))⟩
    · exact .inl ⟨.inr hk, decode_encreq_reserved (.inr hk)⟩

/-- Everything a `PREQ` decodes to. -/
theorem decode_preq_cases (w : BitVec 64) :
    ((preqOp w = 3#2 ∨ preqRsv w ≠ 0#3) ∧ decode (.preq w) = .rejected .reservedOp) ∨
    (preqRsv w = 0#3 ∧
      ((preqOp w = 0#2 ∧ decode (.preq w) = .instr .pNop) ∨
       (preqOp w = 1#2 ∧ decode (.preq w) = .instr (.stageReset (preqSlot w))) ∨
       (preqOp w = 2#2 ∧ decode (.preq w) = .instr (.stageAppend (preqSlot w) (preqN w) (preqByte w 0) (preqByte w 1)
          (preqByte w 2) (preqByte w 3) (preqByte w 4) (preqByte w 5))))) := by
  by_cases hrsv : preqRsv w = 0#3
  · rcases preqOp_cases (preqOp w) with hop | hop | hop | hop
    · exact .inr ⟨hrsv, .inl ⟨hop, decode_preq_pNop hrsv hop⟩⟩
    · exact .inr ⟨hrsv, .inr (.inl ⟨hop, decode_preq_stageReset hrsv hop⟩)⟩
    · exact .inr ⟨hrsv, .inr (.inr ⟨hop, decode_preq_stageAppend hrsv hop⟩)⟩
    · exact .inl ⟨.inl hop, decode_preq_reserved (.inl hop)⟩
  · exact .inl ⟨.inr hrsv, decode_preq_reserved (.inr hrsv)⟩

/-! ### Decoding undoes encoding -/

/-- The word of an operation decodes to it: its fields are read back one by one. -/
theorem decode_of_encode {i : Instr} {p : PortWord} (h : encode i = some p) : decode p = .instr i := by
  cases i with
  | encIdle => cases h; exact decode_encreq_idle (encRsv_word ..) (encKind_word ..)
  | encThrottle addr speed fwd estop =>
    cases h
    rw [decode_encreq_throttle (encRsv_word ..) (encKind_word ..), encAddr_word, encSpeed_word, encFwd_word,
      encEstop_word]
  | encFg1 addr fbits =>
    cases h
    rw [decode_encreq_fg1 (encRsv_word ..) (encKind_word ..), encAddr_word, encFbits_word]
  | encFg2l addr fbits =>
    cases h
    rw [decode_encreq_fg2l (encRsv_word ..) (encKind_word ..), encAddr_word, encFbits_word]
  | encFg2h addr fbits =>
    cases h
    rw [decode_encreq_fg2h (encRsv_word ..) (encKind_word ..), encAddr_word, encFbits_word]
  | pNop => cases h; exact decode_preq_pNop (preqRsv_word ..) (preqOp_word ..)
  | stageReset slot =>
    cases h
    rw [decode_preq_stageReset (preqRsv_word ..) (preqOp_word ..), preqSlot_word]
  | stageAppend slot n b0 b1 b2 b3 b4 b5 =>
    cases h
    rw [decode_preq_stageAppend (preqRsv_word ..) (preqOp_word ..), preqSlot_word, preqN_word, preqByte0_word,
      preqByte1_word, preqByte2_word, preqByte3_word, preqByte4_word, preqByte5_word]
  | nextbit => cases h; rfl
  | pktReset | pktAppend | pktGetbit | pktLength | slotStage | slotFlip | slotGetbit | slotLength => cases h

/-- Settles O10: the fields of the word are the operands. -/
theorem decodeOfEncodeIsTheOperation : Obligations.DecodeOfEncodeIsTheOperation :=
  fun _ _ => decode_of_encode

/-! ### Encoding undoes decoding -/

/-- A mask that stands as fields, in the field order of an `ENCREQ` (30_encoding.md R47). -/
abbrev encReqMask (f : BitVec 5) (e d : Bool) (s : BitVec 7) (a : BitVec 14) : BitVec 32 :=
  1#1 ++ f ++ BitVec.ofBool e ++ BitVec.ofBool d ++ s ++ a ++ 7#3

/-- A mask that stands as fields, in the field order of a `PREQ`: `m` for each byte (30_encoding.md R49). -/
abbrev preqMask (m : Byte) (slot : BitVec 8) (n : BitVec 3) : BitVec 64 :=
  m ++ m ++ m ++ m ++ m ++ m ++ slot ++ 7#3 ++ n ++ 3#2

/-- Masking an `ENCREQ` masks its operand fields. -/
theorem encReqWord_and (f mf : BitVec 5) (e me d md : Bool) (s ms : BitVec 7) (a ma : BitVec 14) (k : BitVec 3) :
    encReqWord f e d s a k &&& encReqMask mf me md ms ma =
      encReqWord (f &&& mf) (e && me) (d && md) (s &&& ms) (a &&& ma) k := by
  have hk : k &&& 7#3 = k := BitVec.and_allOnes
  have hfields :
      (0#1 ++ f ++ BitVec.ofBool e ++ BitVec.ofBool d ++ s ++ a ++ k) &&&
        (1#1 ++ mf ++ BitVec.ofBool me ++ BitVec.ofBool md ++ ms ++ ma ++ 7#3) =
      0#1 ++ (f &&& mf) ++ BitVec.ofBool (e && me) ++ BitVec.ofBool (d && md) ++ (s &&& ms) ++ (a &&& ma) ++ k := by
    simp only [BitVec.and_append, BitVec.ofBool_and_ofBool, BitVec.zero_and, hk]
  exact hfields

/-- Masking a `PREQ` masks its operand fields. -/
theorem preqWord_and (b5 b4 b3 b2 b1 b0 m : Byte) (slot ms : BitVec 8) (n mn : BitVec 3) (op : BitVec 2) :
    preqWord b5 b4 b3 b2 b1 b0 slot n op &&& preqMask m ms mn =
      preqWord (b5 &&& m) (b4 &&& m) (b3 &&& m) (b2 &&& m) (b1 &&& m) (b0 &&& m) (slot &&& ms) (n &&& mn) op := by
  have hop : op &&& 3#2 = op := BitVec.and_allOnes
  have hfields :
      (b5 ++ b4 ++ b3 ++ b2 ++ b1 ++ b0 ++ slot ++ 0#3 ++ n ++ op) &&&
        (m ++ m ++ m ++ m ++ m ++ m ++ ms ++ 7#3 ++ mn ++ 3#2) =
      (b5 &&& m) ++ (b4 &&& m) ++ (b3 &&& m) ++ (b2 &&& m) ++ (b1 &&& m) ++ (b0 &&& m) ++ (slot &&& ms) ++ 0#3 ++
        (n &&& mn) ++ op := by
    simp only [BitVec.and_append, BitVec.zero_and, hop]
  exact hfields

/-- A decoded `ENCREQ`, masked by the fields of its kind, is the word of its operation (30_encoding.md R47). -/
theorem encode_of_decode_encreq {w : BitVec 32} {i : Instr} (h : decode (.encreq w) = .instr i) :
    encode i = some (.encreq (w &&&
      (if encKind w = 0#3 then encReqMask 0#5 false false 0#7 0#14
       else if encKind w = 1#3 then encReqMask 0#5 true true (BitVec.allOnes 7) (BitVec.allOnes 14)
       else encReqMask (BitVec.allOnes 5) false false 0#7 (BitVec.allOnes 14)))) := by
  rcases decode_encreq_cases w with ⟨-, hd⟩ | ⟨hrsv, hkind⟩
  · cases hd.symm.trans h
  obtain ⟨f, e, d, s, a, k, rfl⟩ : ∃ f e d s a k, w = encReqWord f e d s a k :=
    ⟨_, _, _, _, _, _, (encReqWord_fields hrsv).symm⟩
  simp only [encKind_word, encAddr_word, encSpeed_word, encFwd_word, encEstop_word, encFbits_word] at hkind ⊢
  rcases hkind with ⟨rfl, hd⟩ | ⟨rfl, hd⟩ | ⟨rfl, hd⟩ | ⟨rfl, hd⟩ | ⟨rfl, hd⟩ <;> cases hd.symm.trans h <;>
    simp [encode, encReqWord_and, -BitVec.reduceAllOnes]

/-- A decoded `PREQ`, masked by the fields of its op, is the word of its operation (30_encoding.md R49). -/
theorem encode_of_decode_preq {w : BitVec 64} {i : Instr} (h : decode (.preq w) = .instr i) :
    encode i = some (.preq (w &&&
      (if preqOp w = 0#2 then preqMask 0#8 0#8 0#3
       else if preqOp w = 1#2 then preqMask 0#8 (BitVec.allOnes 8) 0#3
       else preqMask (BitVec.allOnes 8) (BitVec.allOnes 8) (BitVec.allOnes 3)))) := by
  rcases decode_preq_cases w with ⟨-, hd⟩ | ⟨hrsv, hop⟩
  · cases hd.symm.trans h
  obtain ⟨b5, b4, b3, b2, b1, b0, slot, n, op, rfl⟩ :
      ∃ b5 b4 b3 b2 b1 b0 slot n op, w = preqWord b5 b4 b3 b2 b1 b0 slot n op :=
    ⟨_, _, _, _, _, _, _, _, _, (preqWord_fields hrsv).symm⟩
  simp only [preqOp_word, preqSlot_word, preqN_word, preqByte0_word, preqByte1_word, preqByte2_word, preqByte3_word,
    preqByte4_word, preqByte5_word] at hop ⊢
  rcases hop with ⟨rfl, hd⟩ | ⟨rfl, hd⟩ | ⟨rfl, hd⟩ <;> cases hd.symm.trans h <;>
    simp [encode, preqWord_and, -BitVec.reduceAllOnes]

/-- Settles O11: the masks of the statement are those of the fields. -/
theorem encodeOfDecodeKeepsUsedBits : Obligations.EncodeOfDecodeKeepsUsedBits :=
  ⟨fun _ _ => encode_of_decode_encreq, fun _ _ => encode_of_decode_preq⟩

/-! ### What is rejected and what each port selects -/

/-- Settles O12: the reserved words are the first case of each dispatch, and the strobe is never rejected. -/
theorem exactlyReservedWordsAreRejected : Obligations.ExactlyReservedWordsAreRejected := by
  refine ⟨fun w => ⟨fun h => ?encreq, decode_encreq_reserved⟩, fun w => ⟨fun h => ?preq, decode_preq_reserved⟩,
    fun p r h => ?names⟩
  case encreq =>
    rcases decode_encreq_cases w with ⟨hreserved, -⟩ | ⟨-, ⟨-, hd⟩ | ⟨-, hd⟩ | ⟨-, hd⟩ | ⟨-, hd⟩ | ⟨-, hd⟩⟩
    · exact hreserved
    all_goals cases hd.symm.trans h
  case preq =>
    rcases decode_preq_cases w with ⟨hreserved, -⟩ | ⟨-, ⟨-, hd⟩ | ⟨-, hd⟩ | ⟨-, hd⟩⟩
    · exact hreserved
    all_goals cases hd.symm.trans h
  case names =>
    cases p with
    | encreq w =>
      rcases decode_encreq_cases w with ⟨-, hd⟩ | ⟨-, ⟨-, hd⟩ | ⟨-, hd⟩ | ⟨-, hd⟩ | ⟨-, hd⟩ | ⟨-, hd⟩⟩ <;>
        cases hd.symm.trans h
      exact .inl ⟨w, rfl, rfl⟩
    | preq w =>
      rcases decode_preq_cases w with ⟨-, hd⟩ | ⟨-, ⟨-, hd⟩ | ⟨-, hd⟩ | ⟨-, hd⟩⟩ <;> cases hd.symm.trans h
      exact .inr ⟨w, rfl, rfl⟩
    | nbReq => cases h

theorem portOf_of_decode_encreq {w : BitVec 32} {i : Instr} (h : decode (.encreq w) = .instr i) :
    portOf i = .encoder := by
  rcases decode_encreq_cases w with ⟨-, hd⟩ | ⟨-, ⟨-, hd⟩ | ⟨-, hd⟩ | ⟨-, hd⟩ | ⟨-, hd⟩ | ⟨-, hd⟩⟩ <;>
    cases hd.symm.trans h <;> rfl

theorem portOf_of_decode_preq {w : BitVec 64} {i : Instr} (h : decode (.preq w) = .instr i) :
    portOf i = .producer := by
  rcases decode_preq_cases w with ⟨-, hd⟩ | ⟨-, ⟨-, hd⟩ | ⟨-, hd⟩ | ⟨-, hd⟩⟩ <;> cases hd.symm.trans h <;> rfl

/-- The internal operations are those without a word (30_encoding.md, operation map). -/
theorem encode_eq_none_iff (i : Instr) : encode i = none ↔ portOf i = .internal := by
  cases i <;> simp [encode, portOf]

/-- Settles O13: the port of an operation is read off the word that selects it. -/
theorem eachPortSelectsItsOwnOperations : Obligations.EachPortSelectsItsOwnOperations :=
  ⟨fun _ _ => portOf_of_decode_encreq, fun _ _ => portOf_of_decode_preq,
    fun _ => ⟨fun h => (Decoded.instr.inj h).symm, fun h => h ▸ rfl⟩, encode_eq_none_iff⟩

/-- Settles O14: each word is one concrete number. -/
theorem sampleWordsDecode : Obligations.SampleWordsDecode := by
  unfold Obligations.SampleWordsDecode
  decide

end Sys2Proof.Machine
end

section
/-! PROOFS. What one step keeps: the configuration, the requests behind the one served, and the invariants; and the state
reset leaves (10_state.md sections 1, 2 and 8; 70_reset_and_hazards.md R115, R116). -/

namespace Sys2Proof.Machine

/-! ### Which request a step serves (assumption 1) -/

/-- A step with a request waiting serves it. -/
theorem step_of_pending {s : State} {r : Request} {rest : List Request} (h : s.pending = r :: rest) :
    step s = serve r { s with pending := rest } := by
  conv_lhs => rw [show s = { s with pending := r :: rest } by rw [← h]]
  exact step_pending_cons s r rest

/-- Settles O15: the step serves the head, and serving a word runs the operation it decodes to. -/
theorem stepRunsTheDecodedOperation : Obligations.StepRunsTheDecodedOperation := by
  intro s w i rest hp hd
  rw [step_of_pending hp, serve_instr hd]

/-- Settles O16: the idle request is the word 0, which decodes to P_NOP. -/
theorem idleStepIsNop : Obligations.IdleStepIsNop := by
  intro s hp
  have hidle : s.nextRequest = idleRequest := by rw [State.nextRequest, hp]
  have hdrop : s.dropRequest = s := by rw [State.dropRequest, hp, List.tail_nil, ← hp]
  rw [step, hidle, hdrop, idleRequest, serve_instr (decode_preq_pNop (by decide) (by decide))]
  rfl

/-! ### What NEXTBIT leaves in every state (44_refresh.md R89) -/

theorem slotFlip_ok {s t : State} {i : BitVec 8} (h : slotFlip s i = .ok t) :
    ∃ sl, s.slot? i = some sl ∧ t = s.setSlot i sl.flipped := by
  rcases s.getSlot_cases i with ⟨sl, -, hs, -⟩ | ⟨hg, -⟩
  · rw [slotFlip_of_slot hs] at h
    cases h
    exact ⟨sl, hs, rfl⟩
  · simp [slotFlip, hg] at h

/-- NEXTBIT moves the cursor and at most flips a slot, whatever the state. -/
theorem nextbit_ok {s t : State} {b : Bool} (h : nextbit s = .ok (t, b)) :
    ∃ k i, t = s.setCursor k i ∨ ∃ j sl, t = (s.setCursor k i).setSlot j sl := by
  rw [nextbit] at h
  split at h
  · cases h
  split at h
  · cases h
  next hadv =>
    cases h
    rw [advance] at hadv
    split at hadv
    · cases hadv
    split at hadv
    · obtain ⟨sl, -, rfl⟩ := slotFlip_ok hadv
      exact ⟨_, _, .inr ⟨_, _, rfl⟩⟩
    · cases hadv
      exact ⟨_, _, .inl rfl⟩

/-- What NEXTBIT never changes. -/
theorem nextbit_ok_frame {s t : State} {b : Bool} (h : nextbit s = .ok (t, b)) :
    t.params = s.params ∧ t.pending = s.pending ∧ t.fault = s.fault ∧ t.nslots = s.nslots := by
  obtain ⟨k, i, rfl | ⟨j, sl, rfl⟩⟩ := nextbit_ok h
  · exact ⟨rfl, rfl, rfl, rfl⟩
  · exact ⟨rfl, rfl, rfl, State.setSlot_nslots ..⟩

/-! ### What serving any request keeps -/

/-- The parameters, the number of Slots and the requests behind the one served (10_state.md R20, R21). -/
theorem serve_frame {r : Request} {u t : State} (h : serve r u = .next t) :
    t.params = u.params ∧ t.nslots = u.nslots ∧ t.pending = u.pending := by
  cases serve_cases h with
  | answered _ _ ht | faulted _ _ _ _ ht => subst ht; exact ⟨rfl, rfl, rfl⟩
  | wasReset _ ht => subst ht; exact ⟨rfl, State.resetWith_nslots .., rfl⟩
  | emptied _ _ _ ht | appended _ _ _ _ _ _ _ ht => subst ht; exact ⟨rfl, State.setSlot_nslots .., rfl⟩
  | advanced _ _ _ hn ht =>
    subst ht
    obtain ⟨hparams, hpending, -, hslots⟩ := nextbit_ok_frame hn
    exact ⟨hparams, hslots, hpending⟩

/-- Settles O18: the configuration is among what serving any request keeps. -/
theorem stepKeepsTheConfiguration : Obligations.StepKeepsTheConfiguration := by
  intro s t h
  obtain ⟨hparams, hslots, -⟩ := serve_frame h
  exact ⟨hparams, hslots⟩

/-! ### The state reset leaves (70_reset_and_hazards.md R115, R116) -/

theorem Slot.atReset_reset : Slot.reset.AtReset where
  act := rfl
  nbytes0 := rfl
  ncmd0 := rfl
  idle := by decide
  nbytes1 := rfl
  ncmd1 := rfl

section reset
variable (n : Nat) (p : Config.Params) (rs : List Request)

theorem State.atReset_resetWith : (State.resetWith n p rs).AtReset where
  slots := fun _ hsl => List.eq_of_mem_replicate hsl ▸ Slot.atReset_reset
  curSlot := rfl
  curBit := rfl
  fault := rfl

/-- The block after reset meets the invariants, for 1 to 256 Slots (10_state.md section 8). -/
theorem State.inv_resetWith {n : Nat} (hpos : 1 ≤ n) (hle : n ≤ 256) : (State.resetWith n p rs).Inv where
  slotsPos := by rwa [State.resetWith_nslots]
  slotsLe := by rwa [State.resetWith_nslots]
  slots := fun _ hsl => List.eq_of_mem_replicate hsl ▸ Slot.wellFormed_reset
  cursor := ⟨Slot.reset, List.getElem?_replicate_of_lt hpos, show (0#8).toNat < Slot.reset.active.lenbits by decide⟩

end reset

/-- Settles O20: every Slot is the one Slot of reset, which is well formed, and the cursor is at its bit 0. -/
theorem resetMeetsInvariants : Obligations.ResetMeetsInvariants :=
  fun _ p rs => State.inv_resetWith p rs

/-- Settles O21: `State.reset` is one of the states reset can leave, built with the defaults. -/
theorem resetStateIsAsSpecified : Obligations.ResetStateIsAsSpecified :=
  ⟨State.atReset_resetWith .., rfl, rfl, rfl, rfl⟩

/-- Settles O22: the reset input rebuilds the whole block and keeps its configuration and the requests behind it. -/
theorem resetInputGivesResetState : Obligations.ResetInputGivesResetState :=
  fun _ _ => ⟨_, rfl, State.atReset_resetWith .., State.resetWith_nslots .., rfl, rfl⟩

/-! ### The invariants (10_state.md section 8) -/

/-- Serving any request keeps the invariants: by what it can do to a state. -/
theorem State.Inv.serve {r : Request} {u t : State} (hinv : u.Inv) (h : serve r u = .next t) : t.Inv := by
  cases serve_cases h with
  | answered _ _ ht | faulted _ _ _ _ ht => exact hinv.congr (by rw [ht]; rfl) (by rw [ht]; rfl) (by rw [ht]; rfl)
  | wasReset _ ht => rw [ht]; exact State.inv_resetWith _ _ hinv.slotsPos hinv.slotsLe
  | emptied i sl hs ht =>
    have hempty : sl.staging.emptied.WellFormed := Buffer.wellFormed_emptied ((hinv.slot hs).buf sl.stg)
    subst ht
    exact (hinv.setStaging hs hempty).congr rfl rfl rfl
  | appended i sl q hs hq hn hf ht =>
    have happended : (sl.staging.appended q).WellFormed :=
      Buffer.wellFormed_appended ((hinv.slot hs).buf sl.stg) hq hn hf
    subst ht
    exact (hinv.setStaging hs happended).congr rfl rfl rfl
  | advanced v b _ hn ht => subst ht; exact (hinv.advanced hn).congr rfl rfl rfl

/-- Settles O19: the request served no longer waits, which the invariants do not see; then each kind of effect. -/
theorem stepKeepsInvariants : Obligations.StepKeepsInvariants :=
  fun s _ hinv h => State.Inv.serve (u := s.dropRequest) (hinv.congr rfl rfl rfl) h

/-- Settles O24: at least one command and at most three, each with a frame of 7 to 10 bytes. -/
theorem activePacketIsNeverEmpty : Obligations.ActivePacketIsNeverEmpty := by
  intro s sl hinv hsl
  have hwf := hinv.slots sl hsl
  have hactive : sl.active.WellFormed := hwf.buf sl.act
  have hcount := hwf.activeNonempty
  have hbytes := (Buffer.nbytes_range hactive).1
  exact ⟨hcount, by omega, hactive.nbytes_le⟩

end Sys2Proof.Machine
end

section
/-! PROOFS. Faults: that every operation ends in a next state, what a fault writes, what the fault register shows after a
step and after a run, and the faults of the internal operations and of STAGE_APPEND (60_exceptions.md R99 to R108). -/

namespace Sys2Proof.Machine

/-! ### How an operation ends (00_scope.md R17, R18; 60_exceptions.md R106) -/

/-- An operation run in `s` completed with a response that reports no fault, or took one fault and reports it. -/
def CompletesOrFaults (s : State) (o : Host.Outcome State Fault Refusal) : Prop :=
  ∃ t, o = .next t ∧ (t.resp.faultCode = 0#3 ∨ ∃ c a, a.faultCode = c.code ∧ t = s.takeFault c a)

theorem answerEnc_completesOrFaults (s : State) (r : EncResult) : CompletesOrFaults s (answerEnc s r) :=
  ⟨_, rfl, .inl rfl⟩

/-- The common end of all operations on Slots: `f` makes the state and the response of a result. -/
theorem finish_completesOrFaults {α : Type} (s : State) {shown : FaultCode → Response} {f : α → State × Response}
    (hshown : ∀ c, (shown c).faultCode = c.code) (hf : ∀ a, (f a).2.faultCode = 0#3) (res : Except FaultCode α) :
    CompletesOrFaults s (finish s shown (res.map f)) := by
  cases res with
  | ok a => exact ⟨_, rfl, .inl (hf a)⟩
  | error c => exact ⟨_, rfl, .inr ⟨c, shown c, hshown c, rfl⟩⟩

theorem exec_completesOrFaults (i : Instr) (s : State) : CompletesOrFaults s (exec i s) := by
  cases i with
  | encIdle | encThrottle | encFg1 | encFg2l | encFg2h => exact answerEnc_completesOrFaults s _
  | pNop => exact ⟨_, rfl, .inl rfl⟩
  | stageReset | stageAppend | nextbit | pktReset | pktAppend | pktGetbit | pktLength | slotStage | slotFlip
  | slotGetbit | slotLength => exact finish_completesOrFaults s (fun _ => rfl) (fun _ => rfl) _

/-- Settles O25: an operation that reports a fault took it, which writes the fault register alone. -/
theorem faultWritesOnlyTheFaultRegister : Obligations.FaultWritesOnlyTheFaultRegister := by
  intro i s
  obtain ⟨t, hexec, hend⟩ := exec_completesOrFaults i s
  refine ⟨t, hexec, fun hfault => ?_⟩
  obtain ⟨c, a, hcode, rfl⟩ := hend.resolve_left hfault
  refine ⟨rfl, fun hnone => ?_, fun hheld => FaultCode.record_of_fault hheld c⟩
  rw [State.takeFault_fault, hnone, FaultCode.record_of_none, State.takeFault_resp, hcode]

/-! ### No request stops the block (60_exceptions.md R106; 44_refresh.md R92) -/

theorem serve_next (r : Request) (u : State) : ∃ t, serve r u = .next t := by
  cases r with
  | reset => exact ⟨_, rfl⟩
  | port w =>
    cases hd : decode w with
    | instr i =>
      obtain ⟨t, hexec, -⟩ := exec_completesOrFaults i u
      exact ⟨t, by rw [serve_instr hd, hexec]⟩
    | rejected e =>
      rw [serve_rejected hd]
      cases e <;> exact ⟨_, rfl⟩

/-- A run of at least one step, taken apart: the first step and the run behind it. -/
theorem observe_succ_eq_some {k : Nat} {s v : State} {rs : List Response} :
    observe (k + 1) s = some (rs, v) ↔
      ∃ t qs, step s = .next t ∧ observe k t = some (qs, v) ∧ rs = t.resp :: qs := by
  obtain ⟨t, hstep⟩ := serve_next s.nextRequest s.dropRequest
  have hstep : step s = .next t := hstep
  simp only [observe, hstep, nextState, Option.map_eq_some_iff, Prod.exists, Prod.mk.injEq]
  constructor
  · rintro ⟨qs, w, hrun, rfl, rfl⟩
    exact ⟨t, qs, rfl, hrun, rfl⟩
  · rintro ⟨t', qs, heq, hrun, rfl⟩
    cases heq
    exact ⟨qs, v, hrun, rfl, rfl⟩

/-- Settles O17: one step, then by induction a run of any length. -/
theorem stepAlwaysHasANextState : Obligations.StepAlwaysHasANextState := by
  refine ⟨fun s => serve_next _ _, fun k => ?_⟩
  induction k with
  | zero => exact fun s => ⟨[], s, rfl, rfl⟩
  | succ k ih =>
    intro s
    obtain ⟨t, hstep⟩ := serve_next s.nextRequest s.dropRequest
    obtain ⟨rs, v, hrun, hlen⟩ := ih t
    exact ⟨t.resp :: rs, v, observe_succ_eq_some.2 ⟨t, rs, hstep, hrun, rfl⟩, by rw [List.length_cons, hlen]⟩

/-! ### The fault register (10_state.md R27) -/

/-- Serving a request other than reset keeps a recorded fault and records the one it reports. -/
theorem serve_fault {r : Request} {u t : State} (hr : r ≠ .reset) (h : serve r u = .next t) :
    (u.fault ≠ .none → t.fault = u.fault) ∧ (u.fault = .none → t.faultOut = t.resp.faultCode) := by
  have kept {v : State} {a : Response} (hf : v.fault = u.fault) (ha : a.faultCode = 0#3) (ht : t = v.respond a) :
      (u.fault ≠ .none → t.fault = u.fault) ∧ (u.fault = .none → t.faultOut = t.resp.faultCode) := by
    subst ht
    refine ⟨fun _ => hf, fun hnone => ?_⟩
    rw [State.faultOut, State.respond_fault, hf, hnone, State.respond_resp, ha]
    rfl
  cases serve_cases h with
  | answered a ha ht => exact kept rfl ha ht
  | emptied _ _ _ ht | appended _ _ _ _ _ _ _ ht => exact kept (State.setSlot_fault ..) rfl ht
  | advanced v b _ hn ht =>
    obtain ⟨-, -, hf, -⟩ := nextbit_ok_frame hn
    exact kept hf rfl ht
  | wasReset hreset => exact absurd hreset hr
  | faulted c a _ ha ht =>
    subst ht
    refine ⟨fun hheld => FaultCode.record_of_fault hheld c, fun hnone => ?_⟩
    rw [State.faultOut, State.takeFault_fault, hnone, FaultCode.record_of_none, State.takeFault_resp, ha]

/-- Settles O26: of all a step can do, only a fault and reset reach the register. -/
theorem faultRegisterKeepsTheFirstFault : Obligations.FaultRegisterKeepsTheFirstFault := by
  intro s t hreset h
  exact serve_fault (u := s.dropRequest)
    (fun hr => hreset (State.pending_head?_of_nextRequest hr (by decide))) h

/-- Settles O27: a register that holds NONE after a step held NONE before it, so the induction goes back from the end. -/
theorem faultFreeEndMeansNoFault : Obligations.FaultFreeEndMeansNoFault := by
  intro k
  induction k with
  | zero =>
    intro s t rs h _ hfree
    cases h
    exact ⟨hfree, by simp⟩
  | succ k ih =>
    intro s v rs h hreset hfree
    obtain ⟨t, qs, hstep, hrun, rfl⟩ := observe_succ_eq_some.1 h
    obtain ⟨-, -, hpending⟩ := serve_frame hstep
    have hhead : s.pending.head? ≠ some .reset := by
      intro hh
      obtain ⟨rest, hp⟩ := List.head?_eq_some_iff.1 hh
      simp [hp] at hreset
    have htail : Request.reset ∉ t.pending.take k := by
      rw [hpending, State.dropRequest_pending]
      intro hmem
      cases hp : s.pending <;> simp_all
    obtain ⟨htfree, hqs⟩ := ih t v qs hrun htail hfree
    obtain ⟨hkept, hshown⟩ := faultRegisterKeepsTheFirstFault s t hhead hstep
    have hsfree : s.faultFree := by
      by_contra hheld
      exact hheld ((hkept hheld).symm.trans htfree)
    refine ⟨hsfree, fun r hr => ?_⟩
    rcases List.mem_cons.1 hr with rfl | hr
    · rw [← hshown hsfree, State.faultOut, htfree]
      rfl
    · exact hqs r hr

/-! ### Slots that do not exist (60_exceptions.md R101; 20_memory.md R33) -/

section absent
variable {s : State} {slot : BitVec 8} (h : s.nslots ≤ slot.toNat)
include h

theorem State.getSlot_of_absent : s.getSlot slot = .error .slotIndex := by
  rw [State.getSlot, State.slot?, List.getElem?_eq_none_iff.2 h]

theorem pktReset_of_absent (p : BitVec 1) : pktReset s slot p = .error .slotIndex := by
  rw [pktReset, State.getSlot_of_absent h]

theorem pktAppend_of_absent (p : BitVec 1) (c : List Byte) : pktAppend s slot p c = .error .slotIndex := by
  rw [pktAppend, State.getSlot_of_absent h]

theorem pktGetbit_of_absent (p : BitVec 1) (k : BitVec 8) : pktGetbit s slot p k = .error .slotIndex := by
  rw [pktGetbit, State.getSlot_of_absent h]

theorem pktLength_of_absent (p : BitVec 1) : pktLength s slot p = .error .slotIndex := by
  rw [pktLength, State.getSlot_of_absent h]

theorem slotStage_of_absent : slotStage s slot = .error .slotIndex := by
  rw [slotStage, State.getSlot_of_absent h]

theorem slotFlip_of_absent : slotFlip s slot = .error .slotIndex := by
  rw [slotFlip, State.getSlot_of_absent h]

theorem slotGetbit_of_absent (k : BitVec 8) : slotGetbit s slot k = .error .slotIndex := by
  rw [slotGetbit, State.getSlot_of_absent h]

theorem slotLength_of_absent : slotLength s slot = .error .slotIndex := by
  rw [slotLength, State.getSlot_of_absent h]

theorem stageAppend_of_absent (n : BitVec 3) (b0 b1 b2 b3 b4 b5 : Byte) :
    stageAppend s slot n b0 b1 b2 b3 b4 b5 = .error .slotIndex := if_pos h

end absent

/-- Settles O57: each internal operation looks its slot up first. -/
theorem internalOperationAtAbsentSlotFaults : Obligations.InternalOperationAtAbsentSlotFaults := by
  intro s slot i h hi
  have h : s.nslots ≤ slot.toNat := h
  rcases hi with hi | ⟨p, rfl⟩ | ⟨p, c, rfl⟩ | ⟨p, k, rfl⟩ | ⟨p, rfl⟩ | ⟨k, rfl⟩
  · simp only [List.mem_cons, List.not_mem_nil, or_false] at hi
    rcases hi with rfl | rfl | rfl
    · rw [exec, execSlotStage, slotStage_of_absent h]; rfl
    · rw [exec, execSlotFlip, slotFlip_of_absent h]; rfl
    · rw [exec, execSlotLength, slotLength_of_absent h]; rfl
  · rw [exec, execPktReset, pktReset_of_absent h]; rfl
  · rw [exec, execPktAppend, pktAppend_of_absent h]; rfl
  · rw [exec, execPktGetbit, pktGetbit_of_absent h]; rfl
  · rw [exec, execPktLength, pktLength_of_absent h]; rfl
  · rw [exec, execSlotGetbit, slotGetbit_of_absent h]; rfl

/-! ### STAGE_APPEND (44_refresh.md R96; 60_exceptions.md R101 to R104) -/

section stageAppend
variable {s : State} {slot : BitVec 8} {n : BitVec 3} {b0 b1 b2 b3 b4 b5 : Byte} {e : FaultCode}

/-- A fault of STAGE_APPEND shows in `pstat`. -/
theorem exec_stageAppend_of_error (h : stageAppend s slot n b0 b1 b2 b3 b4 b5 = .error e) :
    exec (.stageAppend slot n b0 b1 b2 b3 b4 b5) s = .next (s.takeFault e (.pstat e.code)) := by
  rw [exec, execStageAppend, h, Except_map_error, finish_error, pstatOf]

/-- The length is checked first, so a fault of the append on a command of legal length is that of STAGE_APPEND. -/
theorem stageAppend_of_append_error {sl : Slot} (hs : s.slot? slot = some sl) (h3 : 3 ≤ n.toNat) (h6 : n.toNat ≤ 6)
    (h : sl.staging.append (cmdBytes n b0 b1 b2 b3 b4 b5) = .error e) :
    stageAppend s slot n b0 b1 b2 b3 b4 b5 = .error e := by
  rw [stageAppend_of_slot hs, cmdLenOutOfRange_eq_false h3 h6, h]
  rfl

theorem stageAppend_of_lenOutOfRange {sl : Slot} (hs : s.slot? slot = some sl) (h : n.toNat < 3 ∨ 6 < n.toNat) :
    stageAppend s slot n b0 b1 b2 b3 b4 b5 = .error .cmdLen := by
  rw [stageAppend_of_slot hs, if_pos ((cmdLenOutOfRange_iff _).2 h)]

end stageAppend

/-- Settles O33: one clause for each check, in the order of the checks. -/
theorem stageAppendFaultsWriteNothing : Obligations.StageAppendFaultsWriteNothing := by
  rintro s slot n b0 b1 b2 b3 b4 b5 _ rfl
  refine ⟨fun h => exec_stageAppend_of_error (stageAppend_of_absent h ..), fun sl hs => ?_⟩
  simp only [foldl_xor_zero, ← frameLen_eq]
  refine ⟨fun hlen => ?cmdLen, fun h3 h6 hx => ?checksum, fun h3 h6 hx hroom => ?capacity⟩
  case cmdLen => exact exec_stageAppend_of_error (stageAppend_of_lenOutOfRange hs hlen)
  all_goals have hlen := cmdBytes_length h6 b0 b1 b2 b3 b4 b5
  case checksum =>
    refine exec_stageAppend_of_error (stageAppend_of_append_error hs h3 h6 ?_)
    exact Buffer.append_of_chk_ne_zero (hlen ▸ h3) (hlen ▸ h6) hx
  case capacity =>
    refine exec_stageAppend_of_error (stageAppend_of_append_error hs h3 h6 ?_)
    exact Buffer.append_of_noRoom ((cmdWellFormed_iff _).2 ⟨hlen ▸ h3, hlen ▸ h6, hx⟩) (by rwa [hlen])

/-- Settles O32: the staging buffer takes the command, and its append leaves the frame behind what it held. -/
theorem stageAppendWritesTheFrame : Obligations.StageAppendWritesTheFrame := by
  refine ⟨fun w => decode_preq_stageAppend, ?_⟩
  intro s slot n b0 b1 b2 b3 b4 b5 sl c hs hm hcmd h3 h6 hx hn hf
  have hlen : c.length = n.toNat := hcmd ▸ cmdBytes_length h6 b0 b1 b2 b3 b4 b5
  rw [foldl_xor_zero] at hx
  rw [← frameLen_eq, ← hlen] at hf ⊢
  have hc : CmdWellFormed c = true := (cmdWellFormed_iff c).2 ⟨hlen ▸ h3, hlen ▸ h6, hx⟩
  have happend : sl.staging.append (cmdBytes n b0 b1 b2 b3 b4 b5) = .ok (sl.staging.appended c) := by
    rw [cmdBytes, ← hcmd]
    exact Buffer.append_ok hc hn hf
  refine ⟨sl.setBuf sl.stg (sl.staging.appended c),
    exec_stageAppend_of_ok hs (cmdLenOutOfRange_eq_false h3 h6) happend,
    Slot.setBuf_act .., Slot.setBuf_staging_active .., ?_⟩
  rw [Slot.setBuf_staging_staging]
  exact ⟨Buffer.appended_nbytes hf, Buffer.appended_ncmd hn, fun k => Buffer.read_appended_frame hm hf,
    fun a => Buffer.read_appended_outside⟩

end Sys2Proof.Machine
end

section
/-! PROOFS. The wire format read back: a reader of the bits of frames gets the commands of those frames, whatever stands
behind them (30_encoding.md R57 to R59). -/

namespace Sys2Proof.Machine

/-! ### The reader's moves (30_encoding.md R57) -/

/-- Between commands the reader counts ones. -/
theorem deframeFrom_none_ones (k n : Nat) (rest : List Bool) :
    deframeFrom none n (ones k ++ rest) = deframeFrom none (n + k) rest := by
  induction k generalizing n with
  | zero => rfl
  | succ k ih =>
    have hstep : deframeFrom none n (ones (k + 1) ++ rest) = deframeFrom none (n + 1) (ones k ++ rest) := by
      rw [ones, List.replicate_succ, List.cons_append, deframeFrom, ones]
    rw [hstep, ih, Nat.add_assoc, Nat.add_comm 1]

/-- A start bit opens a command with the byte behind it. -/
theorem deframeFrom_none_byte (n : Nat) (b : Byte) (rest : List Bool) :
    deframeFrom none n (false :: bits8 b ++ rest) = deframeFrom (some [b]) n rest := by
  simp only [bits8, List.cons_append, List.nil_append, deframeFrom, byteOfBits_bits]

/-- A start bit inside a command adds the byte behind it. -/
theorem deframeFrom_some_byte (q : List Byte) (n : Nat) (b : Byte) (rest : List Bool) :
    deframeFrom (some q) n (false :: bits8 b ++ rest) = deframeFrom (some (q ++ [b])) n rest := by
  simp only [bits8, List.cons_append, List.nil_append, deframeFrom, byteOfBits_bits]

theorem deframeFrom_some_bytes (q c : List Byte) (n : Nat) (rest : List Bool) :
    deframeFrom (some q) n (c.flatMap (fun b => false :: bits8 b) ++ rest) = deframeFrom (some (q ++ c)) n rest := by
  induction c generalizing q with
  | nil => rw [List.flatMap_nil, List.nil_append, List.append_nil]
  | cons b c ih => rw [List.flatMap_cons, List.append_assoc, deframeFrom_some_byte, ih, List.append_assoc]; rfl

/-- The stop bit ends the command, and it and the ones behind it count before the next. -/
theorem deframeFrom_some_ones (q : List Byte) (n : Nat) {k : Nat} (hk : 1 ≤ k) (rest : List Bool) :
    deframeFrom (some q) n (ones k ++ rest) = (n, q) :: deframeFrom none k rest := by
  obtain ⟨k, rfl⟩ := Nat.exists_eq_add_of_le' hk
  rw [ones, List.replicate_succ, List.cons_append, deframeFrom, ← ones, deframeFrom_none_ones, Nat.add_comm]

/-! ### Frames (30_encoding.md R57, R58) -/

/-- The ones that end the frame of a command of `n` bytes, the stop bit among them. -/
def endingOnes (n : Nat) : Nat := 8 * frameLen n - (22 + 9 * n)

/-- A well-formed command's frame ends with 4 to 7 ones. -/
theorem endingOnes_range {n : Nat} (h3 : 3 ≤ n) (h6 : n ≤ 6) : 4 ≤ endingOnes n ∧ endingOnes n ≤ 7 := by
  interval_cases n <;> decide

/-- A frame in the reader's order: the preamble, the bytes, the ending ones. -/
theorem frameBits_eq (c : List Byte) :
    frameBits c = ones 22 ++ (c.flatMap (fun b => false :: bits8 b) ++ ones (endingOnes c.length)) := by
  rw [frameBits, frameBody_length, frameBody, List.append_assoc, endingOnes]

/-- One frame read: its command, after the ones before it and its preamble. -/
theorem deframeFrom_frame {c : List Byte} (hc : CmdWellFormed c = true) (n : Nat) (rest : List Bool) :
    deframeFrom none n (bitsOf (frame c) ++ rest) =
      (n + 22, c) :: deframeFrom none (endingOnes c.length) rest := by
  obtain ⟨h3, h6, -⟩ := (cmdWellFormed_iff c).1 hc
  have hend := endingOnes_range h3 h6
  cases c with
  | nil => simp at h3
  | cons b c =>
    rw [bitsOf_frame, frameBits_eq, List.append_assoc, List.append_assoc, deframeFrom_none_ones, List.flatMap_cons,
      List.append_assoc, deframeFrom_none_byte, deframeFrom_some_bytes, deframeFrom_some_ones _ _ (by omega)]
    rfl

/-- The commands with the ones before each, of a stream of their frames read with `n` ones behind it. -/
def framesRead (n : Nat) : List (List Byte) → List (Nat × List Byte)
  | [] => []
  | c :: cs => (n + 22, c) :: framesRead (endingOnes c.length) cs

theorem deframeFrom_frames {cmds : List (List Byte)} (hw : ∀ c ∈ cmds, CmdWellFormed c = true) (n : Nat) :
    deframeFrom none n (bitsOf (cmds.flatMap frame)) = framesRead n cmds := by
  induction cmds generalizing n with
  | nil => rfl
  | cons c cmds ih =>
    obtain ⟨hc, hw⟩ := List.forall_mem_cons.1 hw
    rw [List.flatMap_cons, bitsOf_append, deframeFrom_frame hc, ih hw, framesRead]

theorem framesRead_commands (n : Nat) (cmds : List (List Byte)) : (framesRead n cmds).map (·.2) = cmds := by
  induction cmds generalizing n with
  | nil => rfl
  | cons c cmds ih => rw [framesRead, List.map_cons, ih]

/-- Behind a frame every command follows 26 to 29 ones: 4 to 7 at the end of a frame and the 22 of the preamble. -/
theorem framesRead_ones {cmds : List (List Byte)} (hw : ∀ c ∈ cmds, CmdWellFormed c = true) {n : Nat} (h4 : 4 ≤ n)
    (h7 : n ≤ 7) : ∀ f ∈ framesRead n cmds, 26 ≤ f.1 ∧ f.1 ≤ 29 := by
  induction cmds generalizing n with
  | nil => simp [framesRead]
  | cons c cmds ih =>
    obtain ⟨hc, hw⟩ := List.forall_mem_cons.1 hw
    obtain ⟨h3, h6, -⟩ := (cmdWellFormed_iff c).1 hc
    obtain ⟨hlo, hhi⟩ := endingOnes_range h3 h6
    rw [framesRead, List.forall_mem_cons]
    exact ⟨by dsimp only; omega, ih hw hlo hhi⟩

/-- A reader that knows the wire format alone reads frames back (30_encoding.md R59). -/
theorem deframe_frames {cmds : List (List Byte)} (hw : ∀ c ∈ cmds, CmdWellFormed c = true) :
    deframe (bitsOf (cmds.flatMap frame)) = framesRead 0 cmds := deframeFrom_frames hw 0

/-- Settles O38: by induction over the list, frame by frame. -/
theorem deframingFramesGivesTheCommands : Obligations.DeframingFramesGivesTheCommands := by
  intro cmds hw
  rw [deframe_frames hw]
  refine ⟨framesRead_commands 0 cmds, ?_⟩
  cases cmds with
  | nil => exact ⟨nofun, nofun⟩
  | cons c cmds =>
    obtain ⟨hc, hw⟩ := List.forall_mem_cons.1 hw
    obtain ⟨h3, h6, -⟩ := (cmdWellFormed_iff c).1 hc
    obtain ⟨hlo, hhi⟩ := endingOnes_range h3 h6
    refine ⟨?first, framesRead_ones hw hlo hhi⟩
    rintro f hf
    obtain rfl : _ = f := Option.some.inj hf
    rfl

end Sys2Proof.Machine
end

section
/-! PROOFS. Traversals: what the NEXTBITs to the end of a Packet return and leave, what a reader makes of them, and how
soon a staged Packet is active (44_refresh.md R91; 70_reset_and_hazards.md R122). -/

namespace Sys2Proof.Machine

/-! ### Entering the next slot -/

/-- The index of the slot behind the one at the cursor (44_refresh.md R89). -/
def State.nextIndex (s : State) : Nat := (s.curSlot.toNat + 1) % s.nslots

/-- Slot `entered`, the next one, entered at bit 0 and flipped, with bit `b` returned. -/
def State.enterNext (s : State) (entered : Slot) (b : Bool) : State :=
  ((s.setCursor s.nextIndex 0).setSlot (BitVec.ofNat 8 s.nextIndex) entered.flipped).respond (.bit b)

section enterNext
variable {s : State} (hpos : 1 ≤ s.nslots) (hm : s.nslots ≤ 256) (entered : Slot) (b : Bool)

@[simp] theorem State.enterNext_curBit : (s.enterNext entered b).curBit = 0#8 := rfl
@[simp] theorem State.enterNext_fault : (s.enterNext entered b).fault = s.fault := rfl
@[simp] theorem State.enterNext_nslots : (s.enterNext entered b).nslots = s.nslots := State.setSlot_nslots ..

include hpos hm

theorem State.enterNext_curSlot : (s.enterNext entered b).curSlot.toNat = s.nextIndex := (State.entered_lt hpos hm).1

theorem State.enterNext_slots : (s.enterNext entered b).slots = s.slots.set s.nextIndex entered.flipped := by
  have hindex : (BitVec.ofNat 8 s.nextIndex).toNat = s.nextIndex := (State.entered_lt hpos hm).1
  rw [State.enterNext, State.respond_slots, State.setSlot_slots, hindex, State.setCursor_slots]

theorem State.enterNext_slot_entered : (s.enterNext entered b).slots[s.nextIndex]? = some entered.flipped := by
  rw [State.enterNext_slots hpos hm]
  exact List.getElem?_set_self (State.entered_lt hpos hm).2

theorem State.enterNext_slot_other {k : Nat} (hk : k ≠ s.nextIndex) :
    (s.enterNext entered b).slots[k]? = s.slots[k]? := by
  rw [State.enterNext_slots hpos hm, List.getElem?_set_ne hk.symm]

end enterNext

/-! ### From the cursor to the end of its Packet -/

/-- From a state that meets the invariants the NEXTBITs to the end of the Packet return what is left of it and enter the
next slot, which exists. -/
theorem State.Inv.nextbits_to_end {s : State} {sl : Slot} (hinv : s.Inv) (hs : s.slot? s.curSlot = some sl) :
    ∃ entered b, s.slots[s.nextIndex]? = some entered ∧
      nextbits (sl.active.lenbits - s.curBit.toNat) s =
        some (sl.active.bits.drop s.curBit.toNat, s.enterNext entered b) := by
  obtain ⟨cl, hcl, hcur⟩ := hinv.cursor
  obtain rfl : sl = cl := Option.some.inj (hs.symm.trans hcl)
  obtain ⟨-, hlt⟩ := State.entered_lt hinv.slotsPos hinv.slotsLe256
  have hnext : s.slots[s.nextIndex]? = some s.slots[s.nextIndex] := List.getElem?_eq_getElem hlt
  obtain ⟨d, hd⟩ : ∃ d, sl.active.lenbits - s.curBit.toNat = d + 1 := Nat.exists_eq_add_of_le' (by omega)
  rw [hd]
  exact ⟨_, _, hnext, Machine.nextbits_to_end hinv.slotsLe256 hs hnext (by omega)⟩

/-- Settles O45: from bit 0 what is left of the Packet is all its bits, those of its content. -/
theorem traversalReturnsTheWholePacket : Obligations.TraversalReturnsTheWholePacket := by
  intro s sl hinv hs hbit
  obtain ⟨entered, b, -, hrun⟩ := hinv.nextbits_to_end hs
  have hzero : s.curBit.toNat = 0 := by rw [hbit]; rfl
  rw [hzero, Nat.sub_zero, List.drop_zero, Buffer.bits_eq] at hrun
  exact ⟨_, hrun, State.enterNext_curSlot hinv.slotsPos hinv.slotsLe256 .., rfl, rfl, State.enterNext_nslots ..,
    fun k => State.enterNext_slot_other hinv.slotsPos hinv.slotsLe256 entered b⟩

/-- Settles O46: the content is the frames of `ncmd` well-formed commands, which the reader reads back. -/
theorem traversalDecodesToWholeCommands : Obligations.TraversalDecodesToWholeCommands := by
  intro s sl hinv hs hbit
  obtain ⟨t, hrun, -⟩ := traversalReturnsTheWholePacket s sl hinv hs hbit
  have hactive : sl.active.WellFormed := (hinv.slot hs).buf sl.act
  obtain ⟨-, cmds, hcount, hw, hcontent⟩ := hactive
  refine ⟨t, _, cmds, hrun, ?_, hcount, hw⟩
  rw [hcontent, deframe_frames hw, framesRead_commands]

/-! ### Staged content becomes active -/

/-- A run of NEXTBITs keeps the invariants. -/
theorem State.Inv.nextbits {k : Nat} {s t : State} {bs : List Bool} (hinv : s.Inv)
    (h : nextbits k s = some (bs, t)) : t.Inv := by
  induction k generalizing s bs with
  | zero => cases h; exact hinv
  | succ k ih =>
    obtain ⟨u, b, cs, hexec, -, hrun, -⟩ := nextbits_succ_eq_some.1 h
    exact ih (State.Inv.serve (r := .port .nbReq) hinv hexec) hrun

/-- What is staged is active after a flip. -/
theorem Slot.flipped_active_of_staged {sl : Slot} (h : sl.staging.nbytes ≠ 0#5) : sl.flipped.active = sl.staging := by
  rcases sl.flipped_cases with ⟨hempty, -⟩ | ⟨-, -, hactive, -⟩
  · exact absurd hempty h
  · exact hactive

/-- Within one Packet of NEXTBITs the next slot is entered. -/
theorem State.Inv.enters_next {s : State} (hinv : s.Inv) :
    ∃ m bits entered b, m ≤ 240 ∧ s.slots[s.nextIndex]? = some entered ∧
      Machine.nextbits m s = some (bits, s.enterNext entered b) := by
  obtain ⟨sl, hs, -⟩ := hinv.cursor
  obtain ⟨entered, b, hnext, hrun⟩ := hinv.nextbits_to_end hs
  have hlen := (hinv.slot hs).active_lenbits_range.2
  exact ⟨_, _, entered, b, by omega, hnext, hrun⟩

/-- The next slot, entered, has what was staged there active. -/
theorem State.Inv.next_staged_becomes_active {s : State} {sl : Slot} (hinv : s.Inv)
    (hs : s.slots[s.nextIndex]? = some sl) (hstaged : sl.staging.nbytes ≠ 0#5) :
    ∃ m bits t tl, m ≤ 240 ∧ Machine.nextbits m s = some (bits, t) ∧ t.curSlot.toNat = s.nextIndex ∧ t.curBit = 0#8 ∧
      t.slots[s.nextIndex]? = some tl ∧ tl.active = sl.staging := by
  obtain ⟨m, bits, entered, b, hm, hentered, hrun⟩ := hinv.enters_next
  obtain rfl : sl = entered := Option.some.inj (hs.symm.trans hentered)
  exact ⟨m, bits, _, sl.flipped, hm, hrun, State.enterNext_curSlot hinv.slotsPos hinv.slotsLe256 .., rfl,
    State.enterNext_slot_entered hinv.slotsPos hinv.slotsLe256 .., Slot.flipped_active_of_staged hstaged⟩

/-- A slot at most `d + 1` entries ahead of the cursor gets its staged Packet active within as many Packets of
NEXTBITs: the slots entered before it leave it as it is. -/
theorem State.Inv.staged_becomes_active {s : State} {sl : Slot} {k d : Nat} (hinv : s.Inv)
    (hs : s.slots[k]? = some sl) (hstaged : sl.staging.nbytes ≠ 0#5)
    (hd : (s.curSlot.toNat + (d + 1)) % s.nslots = k) :
    ∃ m bits t tl, m ≤ (d + 1) * 240 ∧ Machine.nextbits m s = some (bits, t) ∧ t.curSlot.toNat = k ∧ t.curBit = 0#8 ∧
      t.slots[k]? = some tl ∧ tl.active = sl.staging := by
  induction d generalizing s with
  | zero =>
    obtain rfl : s.nextIndex = k := hd
    exact hinv.next_staged_becomes_active hs hstaged
  | succ d ih =>
    by_cases hk : k = s.nextIndex
    · subst hk
      obtain ⟨m, bits, t, tl, hm, hactive⟩ := hinv.next_staged_becomes_active hs hstaged
      exact ⟨m, bits, t, tl, by omega, hactive⟩
    · obtain ⟨m, bits, entered, b, hm, -, hrun⟩ := hinv.enters_next
      have hcur := State.enterNext_curSlot hinv.slotsPos hinv.slotsLe256 entered b
      have hs' := (State.enterNext_slot_other hinv.slotsPos hinv.slotsLe256 entered b hk).trans hs
      have hahead : ((s.enterNext entered b).curSlot.toNat + (d + 1)) % (s.enterNext entered b).nslots = k := by
        rw [hcur, State.enterNext_nslots, State.nextIndex, Nat.mod_add_mod, ← hd]
        congr 1
        omega
      obtain ⟨m', bits', t, tl, hm', hrun', hrest⟩ := ih (hinv.nextbits hrun) hs' hahead
      exact ⟨m + m', bits ++ bits', t, tl, by omega, nextbits_append hrun hrun', hrest⟩

/-- Every slot is at most SLOTS entries ahead of the cursor. -/
theorem State.exists_entries_ahead {s : State} {k : Nat} (hk : k < s.nslots) (hcur : s.curSlot.toNat < s.nslots) :
    ∃ d, d + 1 ≤ s.nslots ∧ (s.curSlot.toNat + (d + 1)) % s.nslots = k := by
  by_cases hbehind : k ≤ s.curSlot.toNat
  · refine ⟨k + s.nslots - s.curSlot.toNat - 1, by omega, ?_⟩
    rw [show s.curSlot.toNat + (k + s.nslots - s.curSlot.toNat - 1 + 1) = k + s.nslots by omega, Nat.add_mod_right,
      Nat.mod_eq_of_lt hk]
  · refine ⟨k - s.curSlot.toNat - 1, by omega, ?_⟩
    rw [show s.curSlot.toNat + (k - s.curSlot.toNat - 1 + 1) = k by omega, Nat.mod_eq_of_lt hk]

/-- Settles O48: the slot is at most SLOTS entries ahead, each at most 240 NEXTBITs away. -/
theorem stagedContentIsActiveWithinOneCycle : Obligations.StagedContentIsActiveWithinOneCycle := by
  intro s k sl hinv hs hstaged
  obtain ⟨cl, hcl, -⟩ := hinv.cursor
  obtain ⟨d, hdle, hd⟩ := State.exists_entries_ahead (List.getElem?_eq_some_iff.1 hs).1 (State.slot?_lt hcl)
  obtain ⟨m, bits, t, tl, hm, hactive⟩ := hinv.staged_becomes_active hs hstaged hd
  exact ⟨m, bits, t, tl, hm.trans (Nat.mul_le_mul_right 240 hdle), hactive⟩

end Sys2Proof.Machine
end

section
/-! PROOFS. Bytes that are no content: each shared operation, run on two states that agree but for such bytes, ends alike
and leaves states that agree again (10_state.md R22; assumption 3). -/

namespace Sys2Proof.Machine

/-! ### Buffers -/

section buffer
variable {b b' : Buffer} (h : b.Agrees b')
include h

theorem Buffer.Agrees.lenbits : b'.lenbits = b.lenbits := by
  rw [Buffer.lenbits, h.nbytes, Buffer.lenbits]

/-- A bit of the content is the same bit. -/
theorem Buffer.Agrees.bitAt {i : Nat} (hi : i < b.lenbits) : b'.bitAt i = b.bitAt i := by
  have hbits : b'.bits[i]? = b.bits[i]? := by rw [Buffer.bits_eq, Buffer.bits_eq, h.content]
  simpa [Buffer.bits, h.lenbits, hi] using hbits

theorem Buffer.Agrees.getBit (i : Nat) : b'.getBit i = b.getBit i := by
  by_cases hi : i < b.lenbits
  · rw [Buffer.getBit_of_lt hi, Buffer.getBit_of_lt (h.lenbits ▸ hi), h.bitAt hi]
  · have hle : b.lenbits ≤ i := by omega
    rw [Buffer.getBit_of_le hle, Buffer.getBit_of_le (h.lenbits ▸ hle)]

theorem Buffer.Agrees.emptied : b.emptied.Agrees b'.emptied :=
  ⟨h.canonical, h.canonical', rfl, rfl, by rw [Buffer.emptied_content, Buffer.emptied_content]⟩

/-- A frame appended stands behind the same content in both. -/
theorem Buffer.Agrees.appended {c : List Byte} (hf : b.nbytes.toNat + frameLen c.length ≤ 30) :
    (b.appended c).Agrees (b'.appended c) where
  canonical := Memory.wf_writeBytes h.canonical (by rwa [frame_length])
  canonical' := Memory.wf_writeBytes h.canonical' (by rwa [h.nbytes, frame_length])
  nbytes := by rw [Buffer.appended, Buffer.appended, h.nbytes]
  ncmd := by rw [Buffer.appended, Buffer.appended, h.ncmd]
  content := by
    rw [Buffer.appended_content h.canonical hf, Buffer.appended_content h.canonical' (by rwa [h.nbytes]), h.content]

end buffer

/-! ### Operations that end alike -/

/-- Two operations end alike: with results that `R` relates, or with one fault. -/
inductive EndsAlike {α : Type} (R : α → α → Prop) : Except FaultCode α → Except FaultCode α → Prop
  | ok {a a' : α} (h : R a a') : EndsAlike R (.ok a) (.ok a')
  | error (c : FaultCode) : EndsAlike R (.error c) (.error c)

theorem EndsAlike.map {α β : Type} {R : α → α → Prop} {Q : β → β → Prop} {f f' : α → β} {x x' : Except FaultCode α}
    (h : EndsAlike R x x') (hf : ∀ a a', R a a' → Q (f a) (f' a')) : EndsAlike Q (x.map f) (x'.map f') := by
  cases h with
  | ok h => exact .ok (hf _ _ h)
  | error c => exact .error c

/-- An append makes its checks on the counts alone. -/
theorem Buffer.Agrees.append {b b' : Buffer} (h : b.Agrees b') (c : List Byte) :
    EndsAlike Buffer.Agrees (b.append c) (b'.append c) := by
  rcases b.append_cases c with ⟨ha, hlen⟩ | ⟨ha, h3, h6, hx⟩ | ⟨ha, hc, hroom⟩ | ⟨ha, hc, hn, hf⟩ <;> rw [ha]
  · rw [Buffer.append_of_lenOutOfRange hlen]
    exact .error _
  · rw [Buffer.append_of_chk_ne_zero h3 h6 hx]
    exact .error _
  · rw [Buffer.append_of_noRoom hc (by rwa [h.nbytes, h.ncmd])]
    exact .error _
  · rw [Buffer.append_ok hc (by rwa [h.ncmd]) (by rwa [h.nbytes])]
    exact .ok (h.appended hf)

/-! ### Slots -/

section slot
variable {sl sl' : Slot} (h : sl.Agrees sl')
include h

theorem Slot.Agrees.buf (p : BitVec 1) : (sl.buf p).Agrees (sl'.buf p) := by
  rcases bufIndex_cases p with rfl | rfl
  · exact h.buf0
  · exact h.buf1

theorem Slot.Agrees.stg : sl'.stg = sl.stg := by
  rw [Slot.stg, h.act, Slot.stg]

theorem Slot.Agrees.active : sl.active.Agrees sl'.active := by
  rw [Slot.active, Slot.active, h.act]
  exact h.buf sl.act

theorem Slot.Agrees.staging : sl.staging.Agrees sl'.staging := by
  rw [Slot.staging, Slot.staging, h.stg]
  exact h.buf sl.stg

theorem Slot.Agrees.setBuf (p : BitVec 1) {b b' : Buffer} (hb : b.Agrees b') :
    (sl.setBuf p b).Agrees (sl'.setBuf p b') := by
  rcases bufIndex_cases p with rfl | rfl
  · exact ⟨h.act, hb, h.buf1⟩
  · exact ⟨h.act, h.buf0, hb⟩

/-- A new staging buffer put in place. -/
theorem Slot.Agrees.setStaging {b b' : Buffer} (hb : b.Agrees b') :
    (sl.setBuf sl.stg b).Agrees (sl'.setBuf sl'.stg b') := by
  rw [h.stg]
  exact h.setBuf sl.stg hb

theorem Slot.Agrees.flipped : sl.flipped.Agrees sl'.flipped := by
  have hemptied := h.setBuf sl.act h.active.emptied
  by_cases hempty : sl.staging.nbytes = 0#5
  · rw [Slot.flipped, Slot.flipped, if_pos hempty, if_pos (by rw [h.staging.nbytes, hempty])]
    exact h
  · rw [Slot.flipped, Slot.flipped, if_neg hempty, if_neg (by rwa [h.staging.nbytes]), h.act]
    exact ⟨h.stg, hemptied.buf0, hemptied.buf1⟩

end slot

/-- A Slot after reset agrees with itself: its memories are in canonical form. -/
theorem Slot.agrees_reset : Slot.reset.Agrees Slot.reset where
  act := rfl
  buf0 := ⟨Memory.wf_idleFrame, Memory.wf_idleFrame, rfl, rfl, rfl⟩
  buf1 := ⟨Memory.wf_nil, Memory.wf_nil, rfl, rfl, rfl⟩

/-! ### States -/

/-- Lists related element by element stay so where related elements are put in one place of both. -/
theorem forall₂_set {α : Type} {R : α → α → Prop} {l l' : List α} (h : List.Forall₂ R l l') (i : Nat) {a a' : α}
    (ha : R a a') : List.Forall₂ R (l.set i a) (l'.set i a') := by
  induction h generalizing i with
  | nil => exact .nil
  | cons hx hl ih =>
    cases i with
    | zero => exact .cons ha hl
    | succ i => exact .cons hx (ih i)

section state
variable {s s' : State} (h : s.Agrees s')
include h

theorem State.Agrees.nslots : s'.nslots = s.nslots := h.slots.length_eq.symm

/-- A slot exists in both or in neither. -/
theorem State.Agrees.slot?_cases (i : BitVec 8) :
    (∃ sl sl', s.slot? i = some sl ∧ s'.slot? i = some sl' ∧ sl.Agrees sl') ∨
    (s.nslots ≤ i.toNat ∧ s'.nslots ≤ i.toNat) := by
  by_cases hi : i.toNat < s.nslots
  · have hi' : i.toNat < s'.nslots := h.nslots ▸ hi
    exact .inl ⟨_, _, List.getElem?_eq_getElem hi, List.getElem?_eq_getElem hi', h.slots.get hi hi'⟩
  · exact .inr ⟨by omega, by rw [h.nslots]; omega⟩

theorem State.Agrees.setSlot (i : BitVec 8) {sl sl' : Slot} (hsl : sl.Agrees sl') :
    (s.setSlot i sl).Agrees (s'.setSlot i sl') :=
  ⟨forall₂_set h.slots i.toNat hsl, h.curSlot, h.curBit, h.fault, h.params, h.pending⟩

theorem State.Agrees.setCursor (k i : Nat) : (s.setCursor k i).Agrees (s'.setCursor k i) :=
  ⟨h.slots, rfl, rfl, h.fault, h.params, h.pending⟩

theorem State.Agrees.respond (a : Response) : (s.respond a).Agrees (s'.respond a) :=
  ⟨h.slots, h.curSlot, h.curBit, h.fault, h.params, h.pending⟩

theorem State.Agrees.takeFault (c : FaultCode) (a : Response) : (s.takeFault c a).Agrees (s'.takeFault c a) :=
  ⟨h.slots, h.curSlot, h.curBit, by rw [State.takeFault_fault, h.fault, State.takeFault_fault], h.params, h.pending⟩

theorem State.Agrees.dropRequest : s.dropRequest.Agrees s'.dropRequest :=
  ⟨h.slots, h.curSlot, h.curBit, h.fault, h.params,
    by rw [State.dropRequest_pending, h.pending, State.dropRequest_pending]⟩

/-- Reset leaves one block, whatever the bytes were. -/
theorem State.Agrees.resetInput : s.resetInput.Agrees s'.resetInput := by
  have hslots : List.Forall₂ Slot.Agrees s.resetInput.slots s.resetInput.slots :=
    List.forall₂_same.2 fun _ hsl => List.eq_of_mem_replicate hsl ▸ Slot.agrees_reset
  rw [State.resetInput, State.resetInput, h.nslots, h.params, h.pending]
  exact ⟨hslots, rfl, rfl, rfl, rfl, rfl⟩

/-! ### The operations of the ports -/

theorem State.Agrees.slotFlip (i : BitVec 8) : EndsAlike State.Agrees (slotFlip s i) (slotFlip s' i) := by
  rcases h.slot?_cases i with ⟨sl, sl', hs, hs', hsl⟩ | ⟨habs, habs'⟩
  · rw [slotFlip_of_slot hs, slotFlip_of_slot hs']
    exact .ok (h.setSlot i hsl.flipped)
  · rw [slotFlip_of_absent habs, slotFlip_of_absent habs']
    exact .error _

theorem State.Agrees.advance : EndsAlike State.Agrees (advance s) (advance s') := by
  rcases h.slot?_cases s.curSlot with ⟨sl, sl', hs, hs', hsl⟩ | ⟨habs, habs'⟩
  · simp only [Machine.advance, h.curSlot, slotLength_of_slot hs, slotLength_of_slot hs', hsl.active.lenbits, h.curBit,
      h.nslots]
    split
    · exact (h.setCursor _ _).slotFlip _
    · exact .ok (h.setCursor _ _)
  · simp only [Machine.advance, h.curSlot, slotLength_of_absent habs, slotLength_of_absent habs']
    exact .error _

/-- The bit at the cursor is the same bit, for it is content. -/
theorem State.Agrees.slotGetbit (i k : BitVec 8) : slotGetbit s' i k = slotGetbit s i k := by
  rcases h.slot?_cases i with ⟨sl, sl', hs, hs', hsl⟩ | ⟨habs, habs'⟩
  · rw [slotGetbit_of_slot hs, slotGetbit_of_slot hs', hsl.active.getBit]
  · rw [slotGetbit_of_absent habs, slotGetbit_of_absent habs']

theorem State.Agrees.nextbit :
    EndsAlike (fun x x' => x.1.Agrees x'.1 ∧ x'.2 = x.2) (nextbit s) (nextbit s') := by
  rw [Machine.nextbit, Machine.nextbit, h.curSlot, h.curBit, h.slotGetbit]
  cases Machine.slotGetbit s s.curSlot s.curBit with
  | error c => exact .error c
  | ok b =>
    have hadv := h.advance
    generalize Machine.advance s = x at hadv
    generalize Machine.advance s' = x' at hadv
    cases hadv with
    | error c => exact .error c
    | ok ht => exact .ok ⟨ht, rfl⟩

theorem State.Agrees.stageReset (i : BitVec 8) : EndsAlike State.Agrees (stageReset s i) (stageReset s' i) := by
  rcases h.slot?_cases i with ⟨sl, sl', hs, hs', hsl⟩ | ⟨habs, habs'⟩
  · rw [stageReset_of_slot hs, stageReset_of_slot hs']
    exact .ok (h.setSlot i (hsl.setStaging hsl.staging.emptied))
  · rw [stageReset_of_absent habs, stageReset_of_absent habs']
    exact .error _

theorem State.Agrees.stageAppend (i : BitVec 8) (n : BitVec 3) (b0 b1 b2 b3 b4 b5 : Byte) :
    EndsAlike State.Agrees (stageAppend s i n b0 b1 b2 b3 b4 b5) (stageAppend s' i n b0 b1 b2 b3 b4 b5) := by
  rcases h.slot?_cases i with ⟨sl, sl', hs, hs', hsl⟩ | ⟨habs, habs'⟩
  · rw [stageAppend_of_slot hs, stageAppend_of_slot hs']
    split
    · exact .error _
    · exact (hsl.staging.append _).map fun b b' hb => h.setSlot i (hsl.setStaging hb)
  · rw [stageAppend_of_absent habs, stageAppend_of_absent habs']
    exact .error _

theorem State.Agrees.producerOutcome (w : BitVec 64) :
    EndsAlike State.Agrees (producerOutcome s w) (producerOutcome s' w) := by
  unfold Machine.producerOutcome
  split_ifs
  · exact .error _
  · exact .ok h
  · exact h.stageReset _
  · exact h.stageAppend ..
  · exact .error _

/-- Operations that end alike on states that agree leave states that agree, with one response. -/
theorem State.Agrees.finish {x x' : Except FaultCode (State × Response)} {shown : FaultCode → Response} {t : State}
    (hx : EndsAlike (fun y y' => y.1.Agrees y'.1 ∧ y'.2 = y.2) x x') (ht : finish s shown x = .next t) :
    ∃ t', finish s' shown x' = .next t' ∧ t'.resp = t.resp ∧ t.Agrees t' := by
  cases hx with
  | @ok y y' hy =>
    cases ht
    obtain ⟨hagree, hresp⟩ := hy
    exact ⟨_, rfl, hresp, hresp ▸ hagree.respond _⟩
  | error c =>
    cases ht
    exact ⟨_, rfl, rfl, h.takeFault c _⟩

theorem State.Agrees.serve {r : Request} {t : State} (ht : serve r s = .next t) :
    ∃ t', serve r s' = .next t' ∧ t'.resp = t.resp ∧ t.Agrees t' := by
  match r with
  | .reset =>
    cases ht
    exact ⟨_, rfl, rfl, h.resetInput⟩
  | .port (.encreq w) =>
    rw [serve_encreq] at ht
    cases ht
    rw [serve_encreq, h.params]
    exact ⟨_, rfl, rfl, h.respond _⟩
  | .port (.preq w) =>
    rw [serve_preq] at ht ⊢
    exact h.finish ((h.producerOutcome w).map fun _ _ hv => ⟨hv, rfl⟩) ht
  | .port .nbReq => exact h.finish (h.nextbit.map fun _ _ hv => ⟨hv.1, congrArg Response.bit hv.2⟩) ht

end state

/-- Settles O23: the two states have the same request to serve, and serving it keeps their agreement. -/
theorem bytesBeyondTheContentAreNeverObserved : Obligations.BytesBeyondTheContentAreNeverObserved := by
  intro s s' t h ht
  have hrequest : s'.nextRequest = s.nextRequest := by rw [State.nextRequest, h.pending, State.nextRequest]
  rw [step, hrequest]
  exact h.dropRequest.serve ht

end Sys2Proof.Machine
end

section
/-! PROOFS. The encoder port as a whole: what an evaluation depends on, the form of every command it returns, and the
fields a command determines (41_encoder.md R66, R76; 95_test_vectors.md S5). -/

namespace Sys2Proof.Machine

/-! ### Encoder operations are the requests of the encoder port (41_encoder.md R66, R67) -/

/-- Running an operation that has an `ENCREQ` is evaluating that request. -/
theorem exec_of_encode_encreq {i : Instr} {w : BitVec 32} (h : encode i = some (.encreq w)) (s : State) :
    exec i s = answerEnc s (encodeRequest s.params w) := by
  rw [← serve_encreq, serve_instr (decode_of_encode h)]

/-- Every operation of the encoder has an `ENCREQ`. -/
theorem exists_encreq_of_encoder {i : Instr} (h : portOf i = .encoder) : ∃ w, encode i = some (.encreq w) := by
  cases i with
  | encIdle | encThrottle | encFg1 | encFg2l | encFg2h => exact ⟨_, rfl⟩
  | pNop | stageReset | stageAppend | nextbit | pktReset | pktAppend | pktGetbit | pktLength | slotStage | slotFlip
  | slotGetbit | slotLength => cases h

/-- Settles O6: the response is the word of `encodeRequest`, which reads the request and the parameters. -/
theorem encoderWritesNoState : Obligations.EncoderWritesNoState := by
  intro i hport s
  obtain ⟨w, hw⟩ := exists_encreq_of_encoder hport
  refine ⟨(encodeRequest s.params w).word, fun t ht => ?_⟩
  rw [← ht]
  exact exec_of_encode_encreq hw t

/-! ### The commands returned (41_encoder.md R69, R76) -/

theorem addrBytes_length (a : BitVec 14) : (addrBytes a).length = 1 ∨ (addrBytes a).length = 2 := by
  unfold addrBytes
  split <;> simp

/-- A finished command of two to four bytes and its checksum, or a rejection. -/
def EncResult.Finished : EncResult → Prop
  | .ok q => ∃ body, q = fin body ∧ 2 ≤ body.length ∧ body.length ≤ 4
  | .err _ => True

/-- An address field and one or two bytes behind it, finished. -/
theorem EncResult.finished_addr (addr : BitVec 14) {instr : List Byte} (h1 : 1 ≤ instr.length) (h2 : instr.length ≤ 2) :
    (EncResult.ok (fin (addrBytes addr ++ instr))).Finished := by
  have := addrBytes_length addr
  exact ⟨_, rfl, by rw [List.length_append]; omega, by rw [List.length_append]; omega⟩

theorem encThrottle_finished (p : Config.Params) (addr : BitVec 14) (speed : BitVec 7) (fwd estop : Bool) :
    (encThrottle p addr speed fwd estop).Finished := by
  unfold encThrottle
  split_ifs
  · trivial
  · trivial
  · exact EncResult.finished_addr addr (by simp) (by simp)

theorem encFg1_finished (addr : BitVec 14) (fbits : BitVec 5) : (encFg1 addr fbits).Finished := by
  unfold encFg1
  split_ifs
  · trivial
  · exact EncResult.finished_addr addr (by simp) (by simp)

theorem encFg2_finished (pre : Byte) (addr : BitVec 14) (fbits : BitVec 5) : (encFg2 pre addr fbits).Finished := by
  unfold encFg2
  split_ifs
  · trivial
  · trivial
  · exact EncResult.finished_addr addr (by simp) (by simp)

theorem encodeRequest_finished (p : Config.Params) (w : BitVec 32) : (encodeRequest p w).Finished := by
  unfold encodeRequest
  split_ifs
  · trivial
  · exact ⟨_, rfl, by simp, by simp⟩
  · exact encThrottle_finished ..
  · exact encFg1_finished ..
  · exact encFg2_finished ..
  · exact encFg2_finished ..
  · trivial

/-- A command the encoder returns is well formed and has 3 to 5 bytes (41_encoder.md R76). -/
theorem encodeRequest_ok {p : Config.Params} {w : BitVec 32} {q : List Byte} (h : encodeRequest p w = .ok q) :
    CmdWellFormed q = true ∧ q.length ≤ 5 := by
  have hfin := encodeRequest_finished p w
  rw [h] at hfin
  obtain ⟨body, rfl, h2, h4⟩ := hfin
  have hlen := fin_length body
  exact ⟨(cmdWellFormed_iff _).2 ⟨by omega, by omega, chk_fin body⟩, by omega⟩

/-- The command an accepted response carries. -/
theorem EncResult.rspCmd_word {q : List Byte} (h : q.length ≤ 6) : rspCmd (EncResult.ok q).word = q :=
  (EncResult.word_carries h).cmd h

/-- A response with status 0 is that of an accepted request. -/
theorem EncResult.ok_of_status {r : EncResult} (h : r.status = 0#3) : ∃ q, r = .ok q := by
  cases r with
  | ok q => exact ⟨q, rfl⟩
  | err e => cases e <;> cases h

/-- Settles O8: the response carries the command of `encodeRequest`. -/
theorem encoderCommandsAreWellFormed : Obligations.EncoderCommandsAreWellFormed := by
  intro i s t r hport hexec hresp hstatus
  obtain ⟨w, hw⟩ := exists_encreq_of_encoder hport
  rw [exec_of_encode_encreq hw] at hexec
  cases hexec
  obtain rfl : (encodeRequest s.params w).word = r := Response.encrsp.inj hresp
  rw [EncResult.rspStatus_word_eq] at hstatus
  obtain ⟨q, hq⟩ := EncResult.ok_of_status hstatus
  obtain ⟨hwf, h5⟩ := encodeRequest_ok hq
  obtain ⟨h3, -, -⟩ := (cmdWellFormed_iff q).1 hwf
  rw [hq, EncResult.rspCmd_word (by omega), frame_length, frameLen_eq]
  exact ⟨hwf, h5, by omega, by omega⟩

/-! ### One answer, one command -/

theorem fin_injective {q q' : List Byte} (h : fin q = fin q') : q = q' :=
  (List.append_inj' h rfl).1

/-- Two accepted requests with one answer have one command. -/
theorem answerEnc_ok_injective {s : State} {q q' : List Byte} (h : q.length ≤ 6) (h' : q'.length ≤ 6)
    (he : answerEnc s (.ok q) = answerEnc s (.ok q')) : q = q' := by
  have hword : (EncResult.ok q).word = (EncResult.ok q').word := by
    have := congrArg (fun o => (nextState o).map State.resp) he
    simpa [answerEnc, nextState] using this
  rw [← EncResult.rspCmd_word h, hword, EncResult.rspCmd_word h']

/-- The address field determines the address (30_encoding.md R51). -/
theorem wireAddr_injective {a a' : Nat} (h : a ≤ 9999) (h' : a' ≤ 9999) (he : wireAddr a = wireAddr a') : a = a' := by
  have low {x y : Nat} (hxy : BitVec.ofNat 8 x = BitVec.ofNat 8 y) : x % 256 = y % 256 := by
    simpa using congrArg BitVec.toNat hxy
  unfold wireAddr at he
  split_ifs at he
  · have hlow := low (List.head_eq_of_cons_eq he)
    omega
  · simp at he
  · simp at he
  · obtain ⟨hhigh, hrest⟩ := List.cons_eq_cons.1 he
    have hquot := low hhigh
    have hrem := low (List.head_eq_of_cons_eq hrest)
    omega

/-- Two accepted requests with one answer, of one kind, have one address and the same bytes behind the address field. -/
theorem answerEnc_addr_injective {s : State} {a a' : BitVec 14} {instr instr' : List Byte}
    (he : answerEnc s (.ok (fin (addrBytes a ++ instr))) = answerEnc s (.ok (fin (addrBytes a' ++ instr'))))
    (ha : a.toNat ≤ 9999) (ha' : a'.toNat ≤ 9999) (hlen : instr.length = instr'.length) (h3 : instr.length ≤ 3) :
    a = a' ∧ instr = instr' := by
  have hfit (x : BitVec 14) {y : List Byte} (hy : y.length ≤ 3) : (fin (addrBytes x ++ y)).length ≤ 6 := by
    have := addrBytes_length x
    rw [fin_length, List.length_append]
    omega
  have hbody := fin_injective (answerEnc_ok_injective (hfit a h3) (hfit a' (hlen ▸ h3)) he)
  obtain ⟨haddr, hinstr⟩ := List.append_inj' hbody hlen
  rw [addrBytes_eq_wireAddr ha, addrBytes_eq_wireAddr ha'] at haddr
  exact ⟨BitVec.eq_of_toNat_eq (wireAddr_injective ha ha' haddr), hinstr⟩

/-! ### The fields behind the address (30_encoding.md R53 to R55) -/

section speedByte
variable (p : Config.Params) {v v' : BitVec 7} {d d' e e' : Bool} (h : v.toNat ≤ 126)
include h

/-- Bit 7 of the speed byte is the direction, on emergency stop only where `ESTOP_DIR_BIT` is true. -/
theorem speedByte_direction :
    (speedByte p v d e).toNat / 128 = if d = true ∧ (e = true → p.estopDirBit = true) then 1 else 0 := by
  rw [speedByte_eq p d e h, BitVec.toNat_ofNat]
  split_ifs <;> omega

/-- Bits 6 to 0 of the speed byte are its code. -/
theorem speedByte_code :
    (speedByte p v d e).toNat % 128 = if e = true then 1 else if v.toNat = 0 then 0 else v.toNat + 1 := by
  rw [speedByte_eq p d e h, BitVec.toNat_ofNat]
  split_ifs <;> omega

/-- What a speed byte determines: code 1 is the emergency stop's alone. -/
theorem speedByte_determines (h' : v'.toNat ≤ 126) (he : speedByte p v d e = speedByte p v' d' e') :
    e = e' ∧ (e = false → v = v' ∧ d = d') ∧ (e = true → p.estopDirBit = true → d = d') := by
  have hcode := speedByte_code p h (d := d) (e := e)
  rw [he, speedByte_code p h'] at hcode
  have hdir := speedByte_direction p h (d := d) (e := e)
  rw [he, speedByte_direction p h'] at hdir
  have run (x : Nat) : (if x = 0 then 0 else x + 1) ≠ 1 := by split_ifs <;> omega
  have hestop : e = e' := by
    cases e <;> cases e'
    · rfl
    · exact absurd hcode.symm (run v.toNat)
    · exact absurd hcode (run v'.toNat)
    · rfl
  subst hestop
  refine ⟨rfl, fun hrun => ⟨?speed, ?direction⟩, fun hstop hbit => ?stopDirection⟩
  case speed =>
    refine BitVec.eq_of_toNat_eq ?_
    simp only [hrun, Bool.false_eq_true, if_false] at hcode
    split_ifs at hcode <;> omega
  case direction => cases d <;> cases d' <;> simp_all
  case stopDirection => cases d <;> cases d' <;> simp_all

end speedByte

/-- The instruction byte of function group 1 determines its five function bits. -/
theorem fg1Byte_injective {f f' : BitVec 5} (h : BitVec.ofNat 8 (128 + f.toNat) = BitVec.ofNat 8 (128 + f'.toNat)) :
    f = f' := by
  have := congrArg BitVec.toNat h
  simp only [BitVec.toNat_ofNat] at this
  exact BitVec.eq_of_toNat_eq (by omega)

/-- Function bits below 16 ORed into a byte whose low four bits are 0 are those low four bits. -/
theorem fg2Byte_injective {pre : Byte} (hpre : pre.extractLsb' 0 4 = 0#4) {f f' : BitVec 5} (hf : f.toNat < 16)
    (hf' : f'.toNat < 16) (h : pre ||| BitVec.ofNat 8 f.toNat = pre ||| BitVec.ofNat 8 f'.toNat) : f = f' := by
  have hlow (g : BitVec 5) : (pre ||| BitVec.ofNat 8 g.toNat).extractLsb' 0 4 = BitVec.ofNat 4 g.toNat := by
    rw [BitVec.extractLsb'_or, hpre, BitVec.zero_or]
    refine BitVec.eq_of_toNat_eq ?_
    simp
  have := congrArg BitVec.toNat ((hlow f).symm.trans ((congrArg (·.extractLsb' 0 4) h).trans (hlow f')))
  simp only [BitVec.toNat_ofNat] at this
  exact BitVec.eq_of_toNat_eq (by omega)

/-- Function group 2, whatever byte `pre` the function bits are ORed into. -/
theorem encFg2_determines {s : State} {pre : Byte} {a a' : BitVec 14} {f f' : BitVec 5} (hlo : 1 ≤ a.toNat)
    (hhi : a.toNat ≤ 9999) (hlo' : 1 ≤ a'.toNat) (hhi' : a'.toNat ≤ 9999) (hf : f.toNat < 16) (hf' : f'.toNat < 16)
    (he : answerEnc s (encFg2 pre a f) = answerEnc s (encFg2 pre a' f')) :
    a = a' ∧ (pre.extractLsb' 0 4 = 0#4 → f = f') := by
  rw [encFg2_of_inRange (addrOutOfRange_eq_false hlo hhi) hf,
    encFg2_of_inRange (addrOutOfRange_eq_false hlo' hhi') hf'] at he
  obtain ⟨haddr, hinstr⟩ := answerEnc_addr_injective he hhi hhi' rfl (by simp)
  exact ⟨haddr, fun hpre => fg2Byte_injective hpre hf hf' (List.head_eq_of_cons_eq hinstr)⟩

/-! ### The kind of a command under the default parameters -/

/-- The byte behind a one-byte address field, or behind one of two bytes (30_encoding.md R51). -/
def wireInstr (q : List Byte) : Byte := if (byteAt q 0).toNat ≤ 127 then byteAt q 1 else byteAt q 2

/-- The kind read off that byte: FF, the idle command's checksum; 3F; 100xxxxx; 1011xxxx; else 1010xxxx. -/
def kindOfInstr (b : Byte) : BitVec 3 :=
  if b = 0xFF#8 then 0#3 else if b = 0x3F#8 then 1#3 else if b.toNat / 32 = 4 then 2#3
  else if b.toNat / 16 = 11 then 3#3 else 4#3

theorem wireInstr_command {a : BitVec 14} (h : a.toNat ≤ 9999) (b : Byte) (rest : List Byte) :
    wireInstr (fin (addrBytes a ++ b :: rest)) = b := by
  rw [addrBytes_eq_wireAddr h, wireAddr]
  split
  · next hshort => rw [wireInstr, if_pos (by simp [fin, byteAt]; omega)]; rfl
  · next hlong => rw [wireInstr, if_neg (by simp [fin, byteAt]; omega)]; rfl

theorem kindOfInstr_fg1 (f : BitVec 5) : kindOfInstr (BitVec.ofNat 8 (128 + f.toNat)) = 2#3 := by
  revert f; decide

theorem kindOfInstr_fg2l {f : BitVec 5} (h : f.toNat < 16) : kindOfInstr (0xB0#8 ||| BitVec.ofNat 8 f.toNat) = 3#3 := by
  revert f; decide

theorem kindOfInstr_fg2h {f : BitVec 5} (h : f.toNat < 16) : kindOfInstr (0xA0#8 ||| BitVec.ofNat 8 f.toNat) = 4#3 := by
  revert f; decide

section request
variable (p : Config.Params) (a : BitVec 14) (v : BitVec 7) (d e : Bool) (f : BitVec 5)

theorem encodeRequest_throttle : encodeRequest p (encReqWord 0#5 e d v a 1#3) = encThrottle p a v d e := by
  simp only [encodeRequest, encRsv_word, encKind_word, encAddr_word, encSpeed_word, encFwd_word, encEstop_word]
  rfl

theorem encodeRequest_fg1 : encodeRequest p (encReqWord f false false 0#7 a 2#3) = encFg1 a f := by
  simp only [encodeRequest, encRsv_word, encKind_word, encAddr_word, encFbits_word]
  rfl

theorem encodeRequest_fg2l : encodeRequest p (encReqWord f false false 0#7 a 3#3) = encFg2 p.fg2lPrefix a f := by
  simp only [encodeRequest, encRsv_word, encKind_word, encAddr_word, encFbits_word]
  rfl

theorem encodeRequest_fg2h : encodeRequest p (encReqWord f false false 0#7 a 4#3) = encFg2 p.fg2hPrefix a f := by
  simp only [encodeRequest, encRsv_word, encKind_word, encAddr_word, encFbits_word]
  rfl

end request

/-- With the default function group 2 bytes the kind of a legal request is read off the command it gets. -/
theorem encodeRequest_kind {p : Config.Params} (hl : p.fg2lPrefix = 0xB0#8) (hh : p.fg2hPrefix = 0xA0#8) {i : Instr}
    {w : BitVec 32} {slots : Nat} (hw : encode i = some (.encreq w)) (hwf : i.wellFormed slots = true) :
    ∃ q, encodeRequest p w = .ok q ∧ kindOfInstr (wireInstr q) = encKind w := by
  have inRange {a : BitVec 14} (h : addrOutOfRange a = false) : a.toNat ≤ 9999 := by
    have := mt (addrOutOfRange_iff a).2 (by simp [h])
    omega
  cases i with
  | encIdle => cases hw; exact ⟨_, rfl, by decide⟩
  | encThrottle a v d e =>
    cases hw
    simp only [Instr.wellFormed, Bool.and_eq_true, Bool.not_eq_true', decide_eq_true_eq] at hwf
    refine ⟨_, (encodeRequest_throttle ..).trans (encThrottle_of_inRange hwf.1 hwf.2 p d e), ?_⟩
    rw [wireInstr_command (inRange hwf.1), encKind_word]
    rfl
  | encFg1 a f =>
    cases hw
    simp only [Instr.wellFormed, Bool.not_eq_true'] at hwf
    refine ⟨_, (encodeRequest_fg1 ..).trans (encFg1_of_inRange hwf f), ?_⟩
    rw [wireInstr_command (inRange hwf), encKind_word, kindOfInstr_fg1]
  | encFg2l a f =>
    cases hw
    simp only [Instr.wellFormed, Bool.and_eq_true, Bool.not_eq_true', fbits_bit4, decide_eq_false_iff_not, not_le] at hwf
    refine ⟨_, (encodeRequest_fg2l ..).trans (encFg2_of_inRange hwf.1 hwf.2 p.fg2lPrefix), ?_⟩
    rw [wireInstr_command (inRange hwf.1), encKind_word, hl, kindOfInstr_fg2l hwf.2]
  | encFg2h a f =>
    cases hw
    simp only [Instr.wellFormed, Bool.and_eq_true, Bool.not_eq_true', fbits_bit4, decide_eq_false_iff_not, not_le] at hwf
    refine ⟨_, (encodeRequest_fg2h ..).trans (encFg2_of_inRange hwf.1 hwf.2 p.fg2hPrefix), ?_⟩
    rw [wireInstr_command (inRange hwf.1), encKind_word, hh, kindOfInstr_fg2h hwf.2]
  | pNop | stageReset | stageAppend | nextbit | pktReset | pktAppend | pktGetbit | pktLength | slotStage | slotFlip
  | slotGetbit | slotLength => cases hw

/-- Settles O9: one clause for each kind, and the kind read off the byte behind the address. -/
theorem encodedCommandDeterminesItsFields : Obligations.EncodedCommandDeterminesItsFields := by
  refine ⟨?throttle, ?fg1, ?fg2l, ?fg2h, ?kind⟩
  case throttle =>
    intro s a a' v v' d d' e e' hlo hhi hlo' hhi' hv hv' he
    rw [exec_encThrottle, exec_encThrottle, encThrottle_of_inRange (addrOutOfRange_eq_false hlo hhi) hv,
      encThrottle_of_inRange (addrOutOfRange_eq_false hlo' hhi') hv'] at he
    obtain ⟨haddr, hinstr⟩ := answerEnc_addr_injective he hhi hhi' rfl (by simp)
    obtain ⟨-, hspeed⟩ := List.cons_eq_cons.1 hinstr
    exact ⟨haddr, speedByte_determines s.params hv hv' (List.head_eq_of_cons_eq hspeed)⟩
  case fg1 =>
    intro s a a' f f' hlo hhi hlo' hhi' he
    rw [exec_encFg1, exec_encFg1, encFg1_of_inRange (addrOutOfRange_eq_false hlo hhi),
      encFg1_of_inRange (addrOutOfRange_eq_false hlo' hhi')] at he
    obtain ⟨haddr, hinstr⟩ := answerEnc_addr_injective he hhi hhi' rfl (by simp)
    exact ⟨haddr, fg1Byte_injective (List.head_eq_of_cons_eq hinstr)⟩
  case fg2l => exact fun s a a' f f' hlo hhi hlo' hhi' hf hf' he => encFg2_determines hlo hhi hlo' hhi' hf hf' he
  case fg2h => exact fun s a a' f f' hlo hhi hlo' hhi' hf hf' he => encFg2_determines hlo hhi hlo' hhi' hf hf' he
  case kind =>
    intro s i j v w hi hj hwf hwf' hl hh he
    obtain ⟨q, hq, hkind⟩ := encodeRequest_kind hl hh hi hwf
    obtain ⟨q', hq', hkind'⟩ := encodeRequest_kind hl hh hj hwf'
    rw [exec_of_encode_encreq hi, exec_of_encode_encreq hj, hq, hq'] at he
    have hsame := answerEnc_ok_injective ((encodeRequest_ok hq).2.trans (by decide))
      ((encodeRequest_ok hq').2.trans (by decide)) he
    exact hkind.symm.trans ((congrArg (kindOfInstr ∘ wireInstr) hsame).trans hkind')

end Sys2Proof.Machine
end

section
/-! PROOFS. The two agents apart: NEXTBIT writes no byte and reads no staging Packet, and no producer request reaches the
cursor, a role bit or an active Packet (20_memory.md R39, R41; 10_state.md R28). -/

namespace Sys2Proof.Machine

/-! ### NEXTBIT writes no byte (20_memory.md R39) -/

/-- A Slot with the bytes of another, put in its place, leaves every byte of the block. -/
theorem State.byteAt_setSlot {s : State} {i : BitVec 8} {old new : Slot} (hi : s.slot? i = some old)
    (hmem : ∀ p, (new.buf p).mem = (old.buf p).mem) (k : Nat) (p : BitVec 1) (a : Nat) :
    (s.setSlot i new).byteAt k p a = s.byteAt k p a := by
  rw [State.byteAt, State.byteAt, State.setSlot_slots]
  by_cases hk : i.toNat = k
  · subst hk
    have hold : s.slots[i.toNat]? = some old := hi
    rw [List.getElem?_set_self (State.slot?_lt hi), hold, Option.map_some, Option.map_some, hmem]
  · rw [List.getElem?_set_ne hk]

/-- How NEXTBIT ends: with a fault, which writes no Slot, or with its move. -/
theorem exec_nextbit_cases {s t : State} (h : exec .nextbit s = .next t) :
    (∃ c a, t = s.takeFault c a) ∨ ∃ v b, nextbit s = .ok (v, b) ∧ t = v.respond (.bit b) := by
  rw [exec, execNextbit] at h
  cases hn : nextbit s with
  | error c => rw [hn] at h; cases h; exact .inl ⟨_, _, rfl⟩
  | ok vb => rw [hn] at h; cases h; exact .inr ⟨_, _, rfl, rfl⟩

/-- Settles O41: a flip swaps roles and copies no byte. -/
theorem nextbitWritesNoByte : Obligations.NextbitWritesNoByte := by
  intro s t k p a hm h
  rcases exec_nextbit_cases h with ⟨c, r, rfl⟩ | ⟨v, b, hn, rfl⟩
  · rfl
  obtain ⟨sl, hs, -, -, ⟨-, rfl⟩ | ⟨-, entered, hentered, rfl⟩⟩ := nextbit_cases hm hn
  · rfl
  · obtain ⟨hindex, -⟩ := State.entered_lt (Nat.zero_lt_of_lt (State.slot?_lt hs)) hm
    exact State.byteAt_setSlot (s := s.setCursor _ 0) (by rw [State.slot?, hindex]; exact hentered)
      entered.flipped_buf_mem k p a

/-! ### The producer writes staging Packets only (20_memory.md R41) -/

/-- A staging buffer put in place leaves the cursor and every role bit and active Packet. -/
theorem State.setStaging_keeps_active {u : State} {i : BitVec 8} {old sl : Slot} {k : Nat} (hi : u.slot? i = some old)
    (b : Buffer) (hk : u.slots[k]? = some sl) :
    ∃ tl, (u.setSlot i (old.setBuf old.stg b)).slots[k]? = some tl ∧ tl.act = sl.act ∧ tl.active = sl.active := by
  have hlt : k < (u.setSlot i (old.setBuf old.stg b)).slots.length := by
    rw [State.setSlot_slots, List.length_set]
    exact (List.getElem?_eq_some_iff.1 hk).1
  exact ⟨_, List.getElem?_eq_getElem hlt, State.setSlot_keeps_active hk hi (old.setBuf_act _ _)
    (old.setBuf_staging_active _) (List.getElem?_eq_getElem hlt)⟩

/-- Settles O42: of what serving a request can do, a `PREQ` is answered, faults, or puts a staging buffer in place. -/
theorem producerNeverWritesActivePackets : Obligations.ProducerNeverWritesActivePackets := by
  intro s t w rest k sl h hk
  rw [step_pending_cons] at h
  cases serve_cases h with
  | answered _ _ ht | faulted _ _ _ _ ht => subst ht; exact ⟨rfl, rfl, sl, hk, rfl, rfl⟩
  | emptied i old hi ht | appended i old _ hi _ _ _ ht =>
    subst ht
    exact ⟨rfl, rfl, State.setStaging_keeps_active hi _ hk⟩
  | wasReset hr => cases hr
  | advanced _ _ hr => cases hr

/-! ### NEXTBIT reads active Packets only (10_state.md R28) -/

/-- With the cursor on no slot NEXTBIT faults. -/
theorem exec_nextbit_of_absent {s : State} (h : s.nslots ≤ s.curSlot.toNat) :
    exec .nextbit s = .next (s.takeFault .slotIndex (.raised .slotIndex)) := by
  rw [exec, execNextbit, nextbit, slotGetbit_of_absent h]
  rfl

/-- With the cursor beyond the active Packet NEXTBIT faults. -/
theorem exec_nextbit_of_beyond {s : State} {sl : Slot} (h : s.slot? s.curSlot = some sl)
    (hi : sl.active.lenbits ≤ s.curBit.toNat) :
    exec .nextbit s = .next (s.takeFault .getbitRange (.raised .getbitRange)) := by
  rw [exec, execNextbit, nextbit, slotGetbit_of_slot h, Buffer.getBit_of_le hi]
  rfl

/-- What NEXTBIT answers and where it leaves the cursor, from the number of Slots, the cursor and the active Packet
there. -/
def nextbitView (slots : Nat) (curSlot curBit : BitVec 8) (active : Option Buffer) : Response × BitVec 8 × BitVec 8 :=
  match active with
  | none => (.raised .slotIndex, curSlot, curBit)
  | some b =>
    if b.lenbits ≤ curBit.toNat then (.raised .getbitRange, curSlot, curBit)
    else if curBit.toNat + 1 < b.lenbits then (.bit (b.bitAt curBit.toNat), curSlot, BitVec.ofNat 8 (curBit.toNat + 1))
    else (.bit (b.bitAt curBit.toNat), BitVec.ofNat 8 ((curSlot.toNat + 1) % slots), 0#8)

/-- No staging Packet is among what NEXTBIT's answer and cursor come from. -/
theorem exec_nextbit_view {s t : State} (hm : s.nslots ≤ 256) (h : exec .nextbit s = .next t) :
    (t.resp, t.curSlot, t.curBit) =
      nextbitView s.nslots s.curSlot s.curBit ((s.slot? s.curSlot).map Slot.active) := by
  rcases s.getSlot_cases s.curSlot with ⟨sl, -, hs, -, hlt⟩ | ⟨-, hs, habs⟩ <;> rw [hs]
  · simp only [Option.map_some, nextbitView]
    by_cases hbeyond : sl.active.lenbits ≤ s.curBit.toNat
    · rw [exec_nextbit_of_beyond hs hbeyond] at h
      cases h
      rw [if_pos hbeyond]
      rfl
    rw [if_neg hbeyond]
    by_cases hinside : s.curBit.toNat + 1 < sl.active.lenbits
    · rw [exec_nextbit_of_inside hs hinside, State.setCursor_same_slot] at h
      cases h
      rw [if_pos hinside]
      rfl
    · obtain ⟨-, hnext⟩ := State.entered_lt (Nat.zero_lt_of_lt hlt) hm
      rw [exec_nextbit_of_boundary hs hm (by omega) (List.getElem?_eq_getElem hnext)] at h
      cases h
      rw [if_neg hinside]
      rfl
  · rw [exec_nextbit_of_absent habs] at h
    cases h
    rfl

/-- Settles O43: the two states show NEXTBIT the same Packet. -/
theorem nextbitNeverReadsStaging : Obligations.NextbitNeverReadsStaging := by
  intro s s' t t' hm hsame hlen hactive h h'
  have hcurSlot : s'.curSlot = s.curSlot := by rw [hsame]
  have hcurBit : s'.curBit = s.curBit := by rw [hsame]
  have hnslots : s'.nslots = s.nslots := hlen
  have hpacket : (s'.slot? s.curSlot).map Slot.active = (s.slot? s.curSlot).map Slot.active := by
    by_cases hlt : s.curSlot.toNat < s.slots.length
    · have hs := List.getElem?_eq_getElem hlt
      have hs' := List.getElem?_eq_getElem (hlen ▸ hlt)
      rw [State.slot?, State.slot?, hs, hs', Option.map_some, Option.map_some, (hactive _ _ _ hs hs').2]
    · rw [State.slot?, State.slot?, List.getElem?_eq_none (by omega), List.getElem?_eq_none (by omega)]
  have hview := exec_nextbit_view hm h
  have hview' := exec_nextbit_view (hnslots ▸ hm) h'
  rw [hcurSlot, hcurBit, hnslots, hpacket, ← hview] at hview'
  simpa only [Prod.mk.injEq] using hview'

end Sys2Proof.Machine
end

section
/-! PROOFS. The pseudo-instructions: the requests a program line stands for, and the STAGE_APPEND word built from an
encoder response (30_encoding.md R49, R64, R65). -/

namespace Sys2Proof.Machine

/-! ### The word of `APPEND s, <cmd>` (30_encoding.md R49) -/

/-- The STAGE_APPEND word put together from an `ENCRSP` is the one put together from the command's bytes. -/
theorem appendOfResponse_word (slot : BitVec 8) (q : List Byte) :
    appendOfResponse slot (EncResult.ok q).word = appendWord slot q := by
  have hbytes : (EncResult.ok q).word.extractLsb' 8 48 =
      byteAt q 5 ++ byteAt q 4 ++ byteAt q 3 ++ byteAt q 2 ++ byteAt q 1 ++ byteAt q 0 := by
    simp (disch := decide) only [EncResult.word, encRspWord, field_high]
    exact field_self _
  have hn : (EncResult.ok q).word.extractLsb' 3 3 = BitVec.ofNat 3 q.length := by
    rw [EncResult.word]
    exact rspN_word ..
  rw [appendOfResponse, hbytes, hn]
  rfl

/-- A word with the bytes of a command of at most six bytes STAGE_APPENDs that command. -/
theorem cmdBytes_byteAt {q : List Byte} (h : q.length ≤ 6) :
    cmdBytes (BitVec.ofNat 3 q.length) (byteAt q 0) (byteAt q 1) (byteAt q 2) (byteAt q 3) (byteAt q 4) (byteAt q 5) =
      q := by
  have hn : (BitVec.ofNat 3 q.length).toNat = q.length := by rw [BitVec.toNat_ofNat]; omega
  have hbytes :
      [byteAt q 0, byteAt q 1, byteAt q 2, byteAt q 3, byteAt q 4, byteAt q 5] = (List.range 6).map (byteAt q) := rfl
  rw [cmdBytes, hn, hbytes, ← List.map_take, List.take_range, Nat.min_eq_left h]
  refine List.ext_getElem (by simp) fun k _ hk => ?_
  simp [byteAt, hk]

theorem decode_appendWord (slot : BitVec 8) (q : List Byte) :
    decode (.preq (appendWord slot q)) = .instr (.stageAppend slot (BitVec.ofNat 3 q.length) (byteAt q 0) (byteAt q 1)
      (byteAt q 2) (byteAt q 3) (byteAt q 4) (byteAt q 5)) :=
  decode_of_encode rfl

/-! ### The lines (30_encoding.md R65) -/

/-- Picking from a list is picking from each element alone. -/
theorem filterMap_eq_flatMap_singleton {α β : Type} (f : α → Option β) (l : List α) :
    l.filterMap f = l.flatMap fun a => [a].filterMap f := by
  rw [List.filterMap_eq_flatMap_toList]
  refine List.flatMap_congr fun a _ => ?_
  rw [List.filterMap_eq_flatMap_toList, List.flatMap_singleton]

section lines
variable (p : Config.Params) (slot : BitVec 8)

section append
variable {c : Cmd} {q : List Byte} {e : EncError}

theorem appendCmd_of_ok (h : encodeRequest p c.request = .ok q) :
    appendCmd p slot c = .ok (.preq (appendWord slot q)) := by
  rw [appendCmd, h, ← appendOfResponse_word]

theorem appendCmd_of_err (h : encodeRequest p c.request = .err e) : appendCmd p slot c = .error e := by
  rw [appendCmd, h]

/-- An accepted command issues its word and reports nothing. -/
theorem append_of_ok (h : encodeRequest p c.request = .ok q) :
    (Line.append slot c).words p = [.preq (appendWord slot q)] ∧ (Line.append slot c).rejections p = [] := by
  have happend := appendCmd_of_ok p slot h
  simp [Line.words, Line.rejections, appendCmds, appendRejections, happend, Except.toOption]

/-- A rejected command issues nothing and reports its rejection. -/
theorem append_of_err (h : encodeRequest p c.request = .err e) :
    (Line.append slot c).words p = [] ∧ (Line.append slot c).rejections p = [e] := by
  have happend := appendCmd_of_err p slot h
  simp [Line.words, Line.rejections, appendCmds, appendRejections, happend, Except.toOption]

end append

/-- A list of commands issues what each issues alone. -/
theorem appendCmds_eq_flatMap (cs : List Cmd) :
    appendCmds p slot cs = cs.flatMap fun c => appendCmds p slot [c] :=
  filterMap_eq_flatMap_singleton _ cs

/-- A list of commands reports what each reports alone. -/
theorem appendRejections_eq_flatMap (cs : List Cmd) :
    appendRejections p slot cs = cs.flatMap fun c => appendRejections p slot [c] :=
  filterMap_eq_flatMap_singleton _ cs

end lines

/-- Settles O35: the requests decode to the commands' operations, the step answers `encodeRequest`, and the lines issue
the words of its answers. -/
theorem pseudoInstructionsIssueTheirRequests : Obligations.PseudoInstructionsIssueTheirRequests := by
  have hnarrow (f : BitVec 4) : 0#1 ++ f = f.setWidth 5 := by revert f; decide
  refine ⟨⟨decode_of_encode rfl, fun a v d e => decode_of_encode rfl, fun a f => decode_of_encode rfl,
    fun a f => decode_of_encode (hnarrow f ▸ rfl), fun a f => decode_of_encode (hnarrow f ▸ rfl)⟩, ?step, ?set, ?append⟩
  case step =>
    intro s w rest
    rw [step_pending_cons, serve_encreq]
    rfl
  case set =>
    exact fun p slot cs => ⟨_, decode_of_encode rfl, congrArg (_ :: ·) (appendCmds_eq_flatMap p slot cs),
      appendRejections_eq_flatMap p slot cs⟩
  case append =>
    refine fun p slot c => ⟨fun q hq => ?_, fun e => append_of_err p slot⟩
    have h6 : q.length ≤ 6 := (encodeRequest_ok hq).2.trans (by decide)
    have hn : (BitVec.ofNat 3 q.length).toNat = q.length := by rw [BitVec.toNat_ofNat]; omega
    obtain ⟨hwords, hrejections⟩ := append_of_ok p slot hq
    exact ⟨_, _, _, _, _, _, _, _, appendCmd_of_ok p slot hq, hwords, hrejections, decode_appendWord slot q, hn,
      cmdBytes_byteAt h6⟩

end Sys2Proof.Machine
end

section
/-! PROOFS. The bytes of a frame, for each length of a command (30_encoding.md R57). -/

namespace Sys2Proof.Machine

/-- Packing the bits of bytes gives the bytes back. -/
theorem pack_bitsOf (q : List Byte) : pack (bitsOf q) = q := by
  induction q with
  | nil => rfl
  | cons b q ih =>
    simp only [bitsOf_cons, bits8, List.cons_append, List.nil_append, pack, byteOfBits_bits, ih]

/-- Bytes with the bits of a frame, its length and its ending ones in numbers, are that frame. -/
theorem frame_eq_of_bits {c q : List Byte} {n k : Nat} (hn : c.length = n) (hk : endingOnes n = k)
    (h : ones 22 ++ (c.flatMap (fun b => false :: bits8 b) ++ ones k) = bitsOf q) : frame c = q := by
  rw [frame, frameBits_eq, hn, hk, h, pack_bitsOf]

/-- Settles O37: the bits of the table's bytes, each read off its fields, are the frame's bits one by one. -/
theorem frameBytesByLength : Obligations.FrameBytesByLength := by
  intro c0 c1 c2 c3 c4 c5
  refine ⟨frame_eq_of_bits (n := 3) (k := 7) rfl (by decide) ?_, frame_eq_of_bits (n := 4) (k := 6) rfl (by decide) ?_,
    frame_eq_of_bits (n := 5) (k := 5) rfl (by decide) ?_, frame_eq_of_bits (n := 6) (k := 4) rfl (by decide) ?_⟩
  all_goals
    simp only [bitsOf_cons, bits8, bitMsbFirst, BitVec.getLsbD_append, BitVec.getLsbD_extractLsb']
    rfl

end Sys2Proof.Machine
end
